-- ==== Sys2Proof/Word.lean ====
section
/-! DEFINITION. The two word types of the core and the operand width (00_scope.md rules R8, R9, R12). -/

namespace Sys2Proof

/-- One 8-bit byte (R8). -/
abbrev Byte := BitVec 8

/-- One 16-bit word: a register slot, the instruction pointer, an address (R7, R8). -/
abbrev Word := BitVec 16

/-- The operand width: byte for width bit 0, word for width bit 1 (R12, "width bit `w`"). -/
inductive Width where
  | byte
  | word
  deriving DecidableEq, Repr

/-- The number of bits of a width, 8 or 16 (R9). -/
def Width.bits : Width → Nat
  | .byte => 8
  | .word => 16

end Sys2Proof
end

