-- ==== Sys2Proof/Config.lean ====
section
/-! DEFINITION. What an implementation fixes: the model argument SW_IMM_EXT and the image bound
(00_scope.md rule R7). -/

namespace Sys2Proof

/-- SW_IMM_EXT: how the one immediate byte of the w = 1, s = 1 form becomes 16 bits (30_encoding.md R87;
92_eei_decisions.md D9). The machine's choice stands in `State.swImmExt`, so a claim about every state
is a claim about both readings. -/
inductive SwImmExt where
  | zero
  | sign
  deriving DecidableEq, Repr

/-- The spec's default for SW_IMM_EXT (R7, R87). DESIGN CHOICE of the spec (D9), log 1. -/
def Config.swImmExtDefault : SwImmExt := .zero

/-- The largest image length L (R7, 20_memory.md R50; D13). -/
def Config.maxImageLen : Nat := 65535

/-- The longest instruction, in bytes (R7, 30_encoding.md R71). -/
def Config.maxInstrLen : Nat := 6

/-- The value each of the 8 slots holds at reset (70_reset_and_hazards.md R230). DESIGN CHOICE (D12), log 2. -/
def Config.resetSlot : Word := 0x0000#16

/-- The value ZF and SF hold at reset (R230). DESIGN CHOICE (D12), log 2. -/
def Config.resetFlag : Bool := false

end Sys2Proof
end

