-- ==== Sys2Proof/Syntax.lean ====
section
/-! DEFINITION. Instructions as data: one constructor of `Instr` per row of spec/opcode_table.json, and the
spec's own instruction and decode-result data types (30_encoding.md rules R83, R84; 00_scope.md rule R6). -/

namespace Sys2Proof

/-- The 16 register names of 10_state.md R21. -/
inductive RegName where
  | al | cl | dl | bl | ah | ch | dh | bh
  | ax | cx | dx | bx | sp | bp | si | di
  deriving DecidableEq, Repr

/-- A displacement of a memory operand (30_encoding.md R80): none, a signed 8-bit number, or 16 bits. -/
inductive Disp where
  | none
  | d8 (k : Int)
  | d16 (v : Word)
  deriving DecidableEq, Repr

/-- An operand (30_encoding.md R83). -/
inductive Operand where
  | reg (n : RegName)
  | mem (bases : List RegName) (disp : Disp)
  | imm8 (v : Byte)
  | imm16 (v : Word)
  deriving DecidableEq, Repr

/-- An immediate whose size matches the width bit: families ACC and REGI (30_encoding.md R85, R88). -/
inductive Imm where
  | imm8 (v : Byte)
  | imm16 (v : Word)
  deriving DecidableEq, Repr

/-- The immediate of family RMI, one constructor per row of the table of 30_encoding.md R87.
`byte s v`: w = 0, one byte, the s bit has no effect. `word v`: w = 1, s = 0, two bytes.
`short v`: w = 1, s = 1, one byte, extended by SW_IMM_EXT when the operand is formed. -/
inductive RmiImm where
  | byte (s : Bool) (v : Byte)
  | word (v : Word)
  | short (v : Byte)
  deriving DecidableEq, Repr

/-- The direction bit d of family RM (30_encoding.md R82): `toRm` is d = 0, `toReg` is d = 1. -/
inductive Dir where
  | toRm
  | toReg
  deriving DecidableEq, Repr

/-- An instruction, one constructor per row of the opcode table: the family, the operands, and those bits of the
encoding that change no operand (d, and s when w = 0), so that no bit of an encoding is lost (log 8).
Branch displacements are the integers -128 to 127 of 30_encoding.md R84. -/
inductive Instr where
  | movRm (d : Dir) (rm : Operand) (reg : RegName)
  | movRegi (reg : RegName) (imm : Imm)
  | addRm (d : Dir) (rm : Operand) (reg : RegName)
  | addAcc (imm : Imm)
  | addRmi (rm : Operand) (imm : RmiImm)
  | subRm (d : Dir) (rm : Operand) (reg : RegName)
  | subAcc (imm : Imm)
  | subRmi (rm : Operand) (imm : RmiImm)
  | cmpRm (d : Dir) (rm : Operand) (reg : RegName)
  | cmpAcc (imm : Imm)
  | cmpRmi (rm : Operand) (imm : RmiImm)
  | jo (disp : Int)
  | jno (disp : Int)
  | jb (disp : Int)
  | jnb (disp : Int)
  | je (disp : Int)
  | jne (disp : Int)
  | jbe (disp : Int)
  | ja (disp : Int)
  | js (disp : Int)
  | jns (disp : Int)
  | jp (disp : Int)
  | jnp (disp : Int)
  | jl (disp : Int)
  | jnl (disp : Int)
  | jle (disp : Int)
  | jg (disp : Int)
  | loopnz (disp : Int)
  | loopz (disp : Int)
  | loop (disp : Int)
  | jcxz (disp : Int)
  deriving DecidableEq, Repr

/-- The 20 branch and loop kinds (30_encoding.md R89). -/
inductive BranchKind where
  | jo | jno | jb | jnb | je | jne | jbe | ja | js | jns | jp | jnp | jl | jnl | jle | jg
  | loopnz | loopz | loop | jcxz
  deriving DecidableEq, Repr

/-- The spec's instruction data type (30_encoding.md R84): what the decoder reports on the `last` port and what
`Unsupported` records. Two encodings of one instruction give one value of this type. -/
inductive Decoded where
  | mov (dst src : Operand) (size : Nat)
  | add (dst src : Operand) (size : Nat)
  | sub (dst src : Operand) (size : Nat)
  | cmp (dst src : Operand) (size : Nat)
  | branch (k : BranchKind) (disp : Int) (size : Nat)
  deriving DecidableEq, Repr

/-- The two decode errors (60_exceptions.md R201, R202). -/
inductive DecodeError where
  | unknownInstruction (byte : Byte) (address : Word)
  | endOfInstructionStream
  deriving DecidableEq, Repr

/-- The result of a decode (00_scope.md R6). -/
inductive DecodeResult where
  | ok (i : Decoded)
  | err (e : DecodeError)
  deriving DecidableEq, Repr

end Sys2Proof
end

