-- ==== Sys2Proof/WellFormed.lean ====
section
/-! DEFINITION. Which terms of `Instr` are instructions the decoder can return (40_cycle.md rule R130): operands of one
width, a destination that is a register or a memory operand, memory descriptors that some addressing byte encodes. -/

namespace Sys2Proof

/-- The width a register name has (10_state.md R25). -/
def RegName.width : RegName → Width
  | .al | .cl | .dl | .bl | .ah | .ch | .dh | .bh => .byte
  | .ax | .cx | .dx | .bx | .sp | .bp | .si | .di => .word

/-- The width of an immediate: 8 bits for `imm8`, 16 bits for `imm16` (30_encoding.md R83). -/
def Imm.width : Imm → Width
  | .imm8 _ => .byte
  | .imm16 _ => .word

/-- The width of a family-RMI immediate: the w bit of its row (30_encoding.md R87). -/
def RmiImm.width : RmiImm → Width
  | .byte _ _ => .byte
  | .word _ => .word
  | .short _ => .word

/-- A signed 8-bit number (30_encoding.md R80, R84). -/
def isSigned8 (k : Int) : Bool := decide (-128 ≤ k) && decide (k ≤ 127)

/-- The base lists of the effective-address table with a base register (30_encoding.md R78). -/
def baseLists : List (List RegName) :=
  [[.bx, .si], [.bx, .di], [.bp, .si], [.bp, .di], [.si], [.di], [.bp], [.bx]]

/-- The memory descriptors some mod and rm encode (30_encoding.md R77, R78, R79): no displacement with every base list but
[BP]; a signed 8-bit one with every base list; 16 bits with every base list, or alone as a direct address. -/
def memWellFormed (bases : List RegName) : Disp → Bool
  | .none => decide (bases ∈ baseLists) && decide (bases ≠ [.bp])
  | .d8 k => decide (bases ∈ baseLists) && isSigned8 k
  | .d16 _ => decide (bases ∈ baseLists) || decide (bases = [])

/-- An operand that `decode_rm` returns at width w (30_encoding.md R92): a register of that width or a memory descriptor. -/
def Operand.isRm (w : Width) : Operand → Bool
  | .reg n => decide (n.width = w)
  | .mem bases disp => memWellFormed bases disp
  | .imm8 _ => false
  | .imm16 _ => false

/-- The instructions the decoder can return (40_cycle.md R130). -/
def Instr.wellFormed : Instr → Bool
  | .movRm _ rm reg | .addRm _ rm reg | .subRm _ rm reg | .cmpRm _ rm reg => rm.isRm reg.width
  | .movRegi reg imm => decide (imm.width = reg.width)
  | .addAcc _ | .subAcc _ | .cmpAcc _ => true
  | .addRmi rm imm | .subRmi rm imm | .cmpRmi rm imm => rm.isRm imm.width
  | .jo k | .jno k | .jb k | .jnb k | .je k | .jne k | .jbe k | .ja k | .js k | .jns k | .jp k | .jnp k | .jl k | .jnl k
  | .jle k | .jg k | .loopnz k | .loopz k | .loop k | .jcxz k => isSigned8 k

end Sys2Proof
end

