-- ==== Sys2Proof/Decode.lean ====
section
/-! DEFINITION. The decoder of 30_encoding.md: the cursor, the dispatch of the leading byte, the decode function, the
instruction data type it reports; then the encoder, written from the same tables; then the two entry points by which the
host lays out the words of spec/opcode_table.json. Opcode values, bit positions, register codes and byte order are the
spec's (92_eei_decisions.md D1 to D6, D22), log 7. -/

namespace Sys2Proof

/-! ## Values (00_scope.md R9) -/

/-- The 16-bit value of two bytes (R9). -/
def cat (hi lo : Byte) : Word := hi ++ lo

/-- Widen with zeros (R9). -/
def zext16 (v : Byte) : Word := v.setWidth 16

/-- Widen by copying bit 7 (R9). -/
def sext16 (v : Byte) : Word := v.signExtend 16

/-- The integer an 8-bit value denotes in two's complement (R9). -/
def signed8 (v : Byte) : Int := v.toInt

/-- The byte that denotes a signed 8-bit integer: the inverse of `signed8` on -128 to 127. -/
def ofSigned8 (k : Int) : Byte := BitVec.ofInt 8 k

/-- The low byte of a word, bits 7:0 (R8). -/
def lowByte (v : Word) : Byte := v.extractLsb 7 0

/-- The high byte of a word, bits 15:8 (R8). -/
def highByte (v : Word) : Byte := v.extractLsb 15 8

/-- The width that a width bit selects (R12). -/
def Width.ofBit : Bool → Width
  | false => .byte
  | true => .word

/-- The width bit of a width (R12). -/
def Width.bit : Width → Bool
  | .byte => false
  | .word => true

/-- The direction that a direction bit selects: 1 makes reg the destination (30_encoding.md R82; D4). -/
def Dir.ofBit : Bool → Dir
  | false => .toRm
  | true => .toReg

/-- The direction bit of a direction (R82). -/
def Dir.bit : Dir → Bool
  | .toRm => false
  | .toReg => true

/-! ## Tables -/

/-- The register code table (30_encoding.md R76; D3). -/
def regName : Width → BitVec 3 → RegName
  | .byte, 0 => .al | .byte, 1 => .cl | .byte, 2 => .dl | .byte, 3 => .bl
  | .byte, 4 => .ah | .byte, 5 => .ch | .byte, 6 => .dh | .byte, 7 => .bh
  | .word, 0 => .ax | .word, 1 => .cx | .word, 2 => .dx | .word, 3 => .bx
  | .word, 4 => .sp | .word, 5 => .bp | .word, 6 => .si | .word, 7 => .di

/-- The code of a register name in the table of R76. -/
def RegName.code : RegName → BitVec 3
  | .al | .ax => 0#3 | .cl | .cx => 1#3 | .dl | .dx => 2#3 | .bl | .bx => 3#3
  | .ah | .sp => 4#3 | .ch | .bp => 5#3 | .dh | .si => 6#3 | .bh | .di => 7#3

/-- The effective-address base table; code 110 is BP here, its direct-address reading is in `decodeRm` (30_encoding.md R78). -/
def eaBases : BitVec 3 → List RegName
  | 0 => [.bx, .si] | 1 => [.bx, .di] | 2 => [.bp, .si] | 3 => [.bp, .di]
  | 4 => [.si] | 5 => [.di] | 6 => [.bp] | 7 => [.bx]

/-- The rm code of a base list (R78); the direct address, with no base, has code 110. -/
def eaCode (bases : List RegName) : BitVec 3 :=
  if bases = [.bx, .si] then 0#3 else if bases = [.bx, .di] then 1#3
  else if bases = [.bp, .si] then 2#3 else if bases = [.bp, .di] then 3#3
  else if bases = [.si] then 4#3 else if bases = [.di] then 5#3
  else if bases = [.bx] then 7#3 else 6#3

/-- The fields of the addressing byte (30_encoding.md R75). -/
def modField (m : Byte) : BitVec 2 := m.extractLsb 7 6

/-- Bits 5:3 of the addressing byte (R75). -/
def regField (m : Byte) : BitVec 3 := m.extractLsb 5 3

/-- Bits 2:0 of the addressing byte (R75). -/
def rmField (m : Byte) : BitVec 3 := m.extractLsb 2 0

/-- The addressing byte with the three fields of R75. -/
def addressingByte (md : BitVec 2) (reg rm : BitVec 3) : Byte := (md ++ reg ++ rm : BitVec 8)

/-! ## The cursor (30_encoding.md R70; 10_state.md R36) -/

/-- The decoder's cursor: the address of the next byte to consume, and how many bytes were consumed (R36). -/
structure Cursor where
  pos : Nat
  count : Nat
  deriving DecidableEq, Repr

/-- The cursor at the start of a decode at address a: position a, count reset (R36, R70 `reset_count`). -/
def Cursor.start (a : Word) : Cursor := { pos := a.toNat, count := 0 }

/-- The cursor after one byte more (R70 `next`). -/
def Cursor.advance (c : Cursor) : Cursor := { pos := c.pos + 1, count := c.count + 1 }

/-- What a reader of the image answers: a value, or a decode error; and where the cursor stands then. -/
inductive Read (α : Type) where
  | ok (a : α) (c : Cursor)
  | err (e : DecodeError) (c : Cursor)
  deriving DecidableEq, Repr

/-- Read on after a value; an error ends the decode (00_scope.md R10, `raise`). -/
def Read.andThen {α β : Type} (r : Read α) (k : α → Cursor → Read β) : Read β :=
  match r with
  | .ok a c => k a c
  | .err e c => .err e c

/-- The byte at the cursor, not consumed (R70 `peek`). `fetch` is Fetch of 20_memory.md R51. -/
def peek (fetch : Nat → Option Byte) (c : Cursor) : Option Byte := fetch c.pos

/-- Consume one byte and count it, or raise EndOfInstructionStream (R70 `next`). -/
def next (fetch : Nat → Option Byte) (c : Cursor) : Read Byte :=
  match peek fetch c with
  | none => .err .endOfInstructionStream c
  | some b => .ok b c.advance

/-- Two bytes, the low one first (30_encoding.md R92 `read16`; 20_memory.md R54; D5). -/
def read16 (fetch : Nat → Option Byte) (c : Cursor) : Read Word :=
  (next fetch c).andThen fun lo c => (next fetch c).andThen fun hi c => .ok (cat hi lo) c

/-! ## Dispatch of the leading byte (30_encoding.md R72, R91) -/

/-- The three arithmetic operations. -/
inductive ArithOp where
  | add
  | sub
  | cmp
  deriving DecidableEq, Repr

/-- The operations of family RM (30_encoding.md R74). -/
inductive RmOp where
  | mov
  | arith (op : ArithOp)
  deriving DecidableEq, Repr

/-- What a leading byte selects (R72, R91). -/
inductive Family where
  | rm (op : RmOp) (d : Dir) (w : Width)
  | acc (op : ArithOp) (w : Width)
  | rmi (s : Bool) (w : Width)
  | regi (w : Width) (code : BitVec 3)
  | br (k : BranchKind)
  | none
  deriving DecidableEq, Repr

/-- The 16 kinds of leading bytes 70 to 7F, by bits 3:0 (30_encoding.md R89; D6). -/
def conditionKind (c : BitVec 4) : BranchKind :=
  match c.toNat with
  | 0 => .jo | 1 => .jno | 2 => .jb | 3 => .jnb | 4 => .je | 5 => .jne | 6 => .jbe | 7 => .ja
  | 8 => .js | 9 => .jns | 10 => .jp | 11 => .jnp | 12 => .jl | 13 => .jnl | 14 => .jle | _ => .jg

/-- The 4 kinds of leading bytes E0 to E3, by bits 1:0 (R89; D6). -/
def loopKind : BitVec 2 → BranchKind
  | 0 => .loopnz | 1 => .loopz | 2 => .loop | 3 => .jcxz

/-- The direction bit of a family-RM leading byte: bit 1 (30_encoding.md R74; D2). -/
def dirOf (b : Byte) : Dir := Dir.ofBit (b.getLsbD 1)

/-- The width bit of a leading byte of families RM, ACC and RMI: bit 0 (R74, R85, R86; D2). -/
def widthOf (b : Byte) : Width := Width.ofBit (b.getLsbD 0)

/-- The dispatch of a leading byte by its bit pattern (R72, R91; D1, D8, D26). -/
def dispatch (b : Byte) : Family :=
  if b.extractLsb 7 2 = 0b100010#6 then .rm .mov (dirOf b) (widthOf b)
  else if b.extractLsb 7 2 = 0b000000#6 then .rm (.arith .add) (dirOf b) (widthOf b)
  else if b.extractLsb 7 2 = 0b001010#6 then .rm (.arith .sub) (dirOf b) (widthOf b)
  else if b.extractLsb 7 2 = 0b001110#6 then .rm (.arith .cmp) (dirOf b) (widthOf b)
  else if b.extractLsb 7 1 = 0b0000010#7 then .acc .add (widthOf b)
  else if b.extractLsb 7 1 = 0b0010110#7 then .acc .sub (widthOf b)
  else if b.extractLsb 7 1 = 0b0011110#7 then .acc .cmp (widthOf b)
  else if b.extractLsb 7 2 = 0b100000#6 then .rmi (b.getLsbD 1) (widthOf b)
  else if b.extractLsb 7 4 = 0b1011#4 then .regi (Width.ofBit (b.getLsbD 3)) (b.extractLsb 2 0)
  else if b.extractLsb 7 4 = 0b0111#4 then .br (conditionKind (b.extractLsb 3 0))
  else if b.extractLsb 7 2 = 0b111000#6 then .br (loopKind (b.extractLsb 1 0))
  else .none

/-- The instruction a family-RMI selector chooses; the other five are invalid (30_encoding.md R86, R94). -/
def selector : BitVec 3 → Option ArithOp
  | 0 => some .add | 5 => some .sub | 7 => some .cmp
  | 1 => none | 2 => none | 3 => none | 4 => none | 6 => none

/-! ## Instructions from their families -/

/-- The family-RM instruction of an operation (30_encoding.md R74). -/
def RmOp.instr : RmOp → Dir → Operand → RegName → Instr
  | .mov => .movRm
  | .arith .add => .addRm
  | .arith .sub => .subRm
  | .arith .cmp => .cmpRm

/-- The family-ACC instruction of an operation (30_encoding.md R85). -/
def ArithOp.accInstr : ArithOp → Imm → Instr
  | .add => .addAcc
  | .sub => .subAcc
  | .cmp => .cmpAcc

/-- The family-RMI instruction of an operation (30_encoding.md R86). -/
def ArithOp.rmiInstr : ArithOp → Operand → RmiImm → Instr
  | .add => .addRmi
  | .sub => .subRmi
  | .cmp => .cmpRmi

/-- The instruction of a branch kind (30_encoding.md R89). -/
def BranchKind.instr : BranchKind → Int → Instr
  | .jo => .jo | .jno => .jno | .jb => .jb | .jnb => .jnb | .je => .je | .jne => .jne | .jbe => .jbe | .ja => .ja
  | .js => .js | .jns => .jns | .jp => .jp | .jnp => .jnp | .jl => .jl | .jnl => .jnl | .jle => .jle | .jg => .jg
  | .loopnz => .loopnz | .loopz => .loopz | .loop => .loop | .jcxz => .jcxz

/-! ## The decode function (30_encoding.md R92) -/

/-- The register-or-memory operand of an addressing byte (R77, R78, R81, R92 `decode_rm`). -/
def decodeRm (fetch : Nat → Option Byte) (md : BitVec 2) (rm : BitVec 3) (w : Width) (c : Cursor) : Read Operand :=
  if md = 0b11#2 then .ok (.reg (regName w rm)) c
  else if md = 0b00#2 ∧ rm = 0b110#3 then (read16 fetch c).andThen fun v c => .ok (.mem [] (.d16 v)) c
  else if md = 0b00#2 then .ok (.mem (eaBases rm) .none) c
  else if md = 0b01#2 then (next fetch c).andThen fun b c => .ok (.mem (eaBases rm) (.d8 (signed8 b))) c
  else (read16 fetch c).andThen fun v c => .ok (.mem (eaBases rm) (.d16 v)) c

/-- An immediate whose size matches the width bit (30_encoding.md R85, R88). -/
def readImm (fetch : Nat → Option Byte) (w : Width) (c : Cursor) : Read Imm :=
  match w with
  | .byte => (next fetch c).andThen fun b c => .ok (.imm8 b) c
  | .word => (read16 fetch c).andThen fun v c => .ok (.imm16 v) c

/-- The immediate of family RMI (30_encoding.md R87). -/
def readRmiImm (fetch : Nat → Option Byte) (s : Bool) (w : Width) (c : Cursor) : Read RmiImm :=
  match w, s with
  | .byte, s => (next fetch c).andThen fun b c => .ok (.byte s b) c
  | .word, false => (read16 fetch c).andThen fun v c => .ok (.word v) c
  | .word, true => (next fetch c).andThen fun b c => .ok (.short b) c

/-- The bytes after the leading byte b0 of an instruction at address a, by family (R92). An invalid selector is reported
before any later byte is read (R94; D7), with the leading byte and its address (D21). -/
def decodeFamily (fetch : Nat → Option Byte) (a : Word) (b0 : Byte) (c : Cursor) : Family → Read Instr
  | .rm op d w =>
    (next fetch c).andThen fun m c => (decodeRm fetch (modField m) (rmField m) w c).andThen fun rm c =>
      .ok (op.instr d rm (regName w (regField m))) c
  | .acc op w => (readImm fetch w c).andThen fun imm c => .ok (op.accInstr imm) c
  | .rmi s w =>
    (next fetch c).andThen fun m c =>
      match selector (regField m) with
      | none => .err (.unknownInstruction b0 a) c
      | some op => (decodeRm fetch (modField m) (rmField m) w c).andThen fun rm c =>
          (readRmiImm fetch s w c).andThen fun imm c => .ok (op.rmiInstr rm imm) c
  | .regi w code => (readImm fetch w c).andThen fun imm c => .ok (.movRegi (regName w code) imm) c
  | .br k => (next fetch c).andThen fun b c => .ok (k.instr (signed8 b)) c
  | .none => .err (.unknownInstruction b0 a) c

/-- The decode function, total on every address and every image (R92, R98): the instruction and the cursor after it, whose
count is the size, or a decode error and the cursor where it arose. -/
def decode (fetch : Nat → Option Byte) (a : Word) : Read Instr :=
  (next fetch (Cursor.start a)).andThen fun b0 c => decodeFamily fetch a b0 c (dispatch b0)

/-- The decoder on a byte list laid at address 0. -/
def decodeBytes (bs : List Byte) : Read Instr := decode (fun k => bs[k]?) 0x0000#16

/-! ## The instruction data type the decoder reports (30_encoding.md R84) -/

/-- The operand an immediate is (R83). -/
def Imm.operand : Imm → Operand
  | .imm8 v => .imm8 v
  | .imm16 v => .imm16 v

/-- The one-byte immediate of w = 1, s = 1 as 16 bits (30_encoding.md R87; D9). -/
def SwImmExt.extend : SwImmExt → Byte → Word
  | .zero, v => zext16 v
  | .sign, v => sext16 v

/-- The operand a family-RMI immediate is under SW_IMM_EXT (R87; D10). -/
def RmiImm.operand (ext : SwImmExt) : RmiImm → Operand
  | .byte _ v => .imm8 v
  | .word v => .imm16 v
  | .short v => .imm16 (ext.extend v)

/-- The destination of a family-RM instruction (30_encoding.md R82). -/
def Dir.dst (d : Dir) (rm : Operand) (reg : RegName) : Operand :=
  match d with
  | .toRm => rm
  | .toReg => .reg reg

/-- The source of a family-RM instruction (R82). -/
def Dir.src (d : Dir) (rm : Operand) (reg : RegName) : Operand :=
  match d with
  | .toRm => .reg reg
  | .toReg => rm

/-- The accumulator of a width: AL or AX (30_encoding.md R85). -/
def accumulator : Width → Operand
  | .byte => .reg .al
  | .word => .reg .ax

/-- The displacement bytes of an operand (30_encoding.md R77). -/
def Operand.dispBytes : Operand → Nat
  | .mem _ .none => 0
  | .mem _ (.d8 _) => 1
  | .mem _ (.d16 _) => 2
  | .reg _ | .imm8 _ | .imm16 _ => 0

/-- The bytes of an immediate that matches the width bit (30_encoding.md R85, R88). -/
def Imm.bytes : Imm → Nat
  | .imm8 _ => 1
  | .imm16 _ => 2

/-- The bytes of a family-RMI immediate, `immbytes(w, s)` (R87). -/
def RmiImm.bytes : RmiImm → Nat
  | .byte _ _ => 1
  | .word _ => 2
  | .short _ => 1

/-- The size of an instruction by family (30_encoding.md R71). The step advances by the cursor's count, not by this. -/
def Instr.size : Instr → Nat
  | .movRm _ rm _ | .addRm _ rm _ | .subRm _ rm _ | .cmpRm _ rm _ => 2 + rm.dispBytes
  | .movRegi _ imm => 1 + imm.bytes
  | .addAcc imm | .subAcc imm | .cmpAcc imm => 1 + imm.bytes
  | .addRmi rm imm | .subRmi rm imm | .cmpRmi rm imm => 2 + rm.dispBytes + imm.bytes
  | .jo _ | .jno _ | .jb _ | .jnb _ | .je _ | .jne _ | .jbe _ | .ja _ | .js _ | .jns _ | .jp _ | .jnp _ | .jl _ | .jnl _
  | .jle _ | .jg _ | .loopnz _ | .loopz _ | .loop _ | .jcxz _ => 2

/-- The instruction in the spec's data type, under SW_IMM_EXT (R82, R84, R85, R87, R88, R89). -/
def Instr.decoded (ext : SwImmExt) (i : Instr) : Decoded :=
  match i with
  | .movRm d rm reg => .mov (d.dst rm reg) (d.src rm reg) i.size
  | .movRegi reg imm => .mov (.reg reg) imm.operand i.size
  | .addRm d rm reg => .add (d.dst rm reg) (d.src rm reg) i.size
  | .addAcc imm => .add (accumulator imm.width) imm.operand i.size
  | .addRmi rm imm => .add rm (imm.operand ext) i.size
  | .subRm d rm reg => .sub (d.dst rm reg) (d.src rm reg) i.size
  | .subAcc imm => .sub (accumulator imm.width) imm.operand i.size
  | .subRmi rm imm => .sub rm (imm.operand ext) i.size
  | .cmpRm d rm reg => .cmp (d.dst rm reg) (d.src rm reg) i.size
  | .cmpAcc imm => .cmp (accumulator imm.width) imm.operand i.size
  | .cmpRmi rm imm => .cmp rm (imm.operand ext) i.size
  | .jo k => .branch .jo k i.size
  | .jno k => .branch .jno k i.size
  | .jb k => .branch .jb k i.size
  | .jnb k => .branch .jnb k i.size
  | .je k => .branch .je k i.size
  | .jne k => .branch .jne k i.size
  | .jbe k => .branch .jbe k i.size
  | .ja k => .branch .ja k i.size
  | .js k => .branch .js k i.size
  | .jns k => .branch .jns k i.size
  | .jp k => .branch .jp k i.size
  | .jnp k => .branch .jnp k i.size
  | .jl k => .branch .jl k i.size
  | .jnl k => .branch .jnl k i.size
  | .jle k => .branch .jle k i.size
  | .jg k => .branch .jg k i.size
  | .loopnz k => .branch .loopnz k i.size
  | .loopz k => .branch .loopz k i.size
  | .loop k => .branch .loop k i.size
  | .jcxz k => .branch .jcxz k i.size

/-- The size field of a decoded instruction (30_encoding.md R84). -/
def Decoded.size : Decoded → Nat
  | .mov _ _ n | .add _ _ n | .sub _ _ n | .cmp _ _ n | .branch _ _ n => n

/-- Where the cursor stands after a read (R70 `get_count` is its count). -/
def Read.cursor {α : Type} : Read α → Cursor
  | .ok _ c => c
  | .err _ c => c

/-- What the decoder reports of a read: the `DecodeResult` of 00_scope.md R6. -/
def Read.result (ext : SwImmExt) : Read Instr → DecodeResult
  | .ok i _ => .ok (i.decoded ext)
  | .err e _ => .err e

/-! ## The encoder -/

/-- A word as two bytes, the low one first (20_memory.md R54). -/
def wordBytes (v : Word) : List Byte := [lowByte v, highByte v]

/-- The bytes of a displacement (30_encoding.md R81). -/
def Disp.encode : Disp → List Byte
  | .none => []
  | .d8 k => [ofSigned8 k]
  | .d16 v => wordBytes v

/-- The mod field of a register-or-memory operand (30_encoding.md R77). -/
def Operand.modCode : Operand → BitVec 2
  | .reg _ => 0b11#2
  | .mem _ .none => 0b00#2
  | .mem _ (.d8 _) => 0b01#2
  | .mem bases (.d16 _) => if bases = [] then 0b00#2 else 0b10#2
  | .imm8 _ | .imm16 _ => 0b00#2

/-- The rm field of a register-or-memory operand (R76, R78). -/
def Operand.rmCode : Operand → BitVec 3
  | .reg n => n.code
  | .mem bases _ => eaCode bases
  | .imm8 _ | .imm16 _ => 0b000#3

/-- The displacement bytes of a register-or-memory operand (R81). -/
def Operand.dispEncode : Operand → List Byte
  | .mem _ disp => disp.encode
  | .reg _ | .imm8 _ | .imm16 _ => []

/-- The addressing byte and the displacement bytes, with the given bits 5:3 (R75, R90). -/
def Operand.encodeRm (rm : Operand) (mid : BitVec 3) : List Byte :=
  addressingByte rm.modCode mid rm.rmCode :: rm.dispEncode

/-- The bytes of an immediate (30_encoding.md R85, R88). -/
def Imm.encode : Imm → List Byte
  | .imm8 v => [v]
  | .imm16 v => wordBytes v

/-- The bytes of a family-RMI immediate (R87). -/
def RmiImm.encode : RmiImm → List Byte
  | .byte _ v => [v]
  | .word v => wordBytes v
  | .short v => [v]

/-- The s bit of a family-RMI immediate (R87). -/
def RmiImm.sBit : RmiImm → Bool
  | .byte s _ => s
  | .word _ => false
  | .short _ => true

/-- A leading byte with six opcode bits, then d or s, then w (30_encoding.md R74, R86). -/
def leadingByte (op : BitVec 6) (d w : Bool) : Byte := (op ++ BitVec.ofBool d ++ BitVec.ofBool w : BitVec 8)

/-- Format RM (R74). -/
def encodeRmForm (op : BitVec 6) (d : Dir) (rm : Operand) (reg : RegName) : List Byte :=
  leadingByte op d.bit reg.width.bit :: rm.encodeRm reg.code

/-- Format ACC (R85): the second-lowest bit of the leading byte is 0. -/
def encodeAccForm (op : BitVec 6) (imm : Imm) : List Byte :=
  leadingByte op false imm.width.bit :: imm.encode

/-- Format RMI (R86). -/
def encodeRmiForm (sel : BitVec 3) (rm : Operand) (imm : RmiImm) : List Byte :=
  leadingByte 0b100000#6 imm.sBit imm.width.bit :: (rm.encodeRm sel ++ imm.encode)

/-- Format REGI (R88). -/
def encodeRegiForm (reg : RegName) (imm : Imm) : List Byte :=
  (0b1011#4 ++ BitVec.ofBool reg.width.bit ++ reg.code : BitVec 8) :: imm.encode

/-- The bytes of an instruction, in stream order (30_encoding.md R74, R85, R86, R88, R89, R90). -/
def encode : Instr → List Byte
  | .movRm d rm reg => encodeRmForm 0b100010#6 d rm reg
  | .movRegi reg imm => encodeRegiForm reg imm
  | .addRm d rm reg => encodeRmForm 0b000000#6 d rm reg
  | .addAcc imm => encodeAccForm 0b000001#6 imm
  | .addRmi rm imm => encodeRmiForm 0b000#3 rm imm
  | .subRm d rm reg => encodeRmForm 0b001010#6 d rm reg
  | .subAcc imm => encodeAccForm 0b001011#6 imm
  | .subRmi rm imm => encodeRmiForm 0b101#3 rm imm
  | .cmpRm d rm reg => encodeRmForm 0b001110#6 d rm reg
  | .cmpAcc imm => encodeAccForm 0b001111#6 imm
  | .cmpRmi rm imm => encodeRmiForm 0b111#3 rm imm
  | .jo k => [0x70#8, ofSigned8 k]
  | .jno k => [0x71#8, ofSigned8 k]
  | .jb k => [0x72#8, ofSigned8 k]
  | .jnb k => [0x73#8, ofSigned8 k]
  | .je k => [0x74#8, ofSigned8 k]
  | .jne k => [0x75#8, ofSigned8 k]
  | .jbe k => [0x76#8, ofSigned8 k]
  | .ja k => [0x77#8, ofSigned8 k]
  | .js k => [0x78#8, ofSigned8 k]
  | .jns k => [0x79#8, ofSigned8 k]
  | .jp k => [0x7A#8, ofSigned8 k]
  | .jnp k => [0x7B#8, ofSigned8 k]
  | .jl k => [0x7C#8, ofSigned8 k]
  | .jnl k => [0x7D#8, ofSigned8 k]
  | .jle k => [0x7E#8, ofSigned8 k]
  | .jg k => [0x7F#8, ofSigned8 k]
  | .loopnz k => [0xE0#8, ofSigned8 k]
  | .loopz k => [0xE1#8, ofSigned8 k]
  | .loop k => [0xE2#8, ofSigned8 k]
  | .jcxz k => [0xE3#8, ofSigned8 k]

/-! ## Words of the opcode table -/

/-- The byte at bits 8k+7 to 8k of a number. -/
def byteOf (w k : Nat) : Byte := BitVec.ofNat 8 (w / 2 ^ (8 * k))

/-- The bytes of an instruction given as spec/opcode_table.json numbers its bits, followed by zeros up to the longest
instruction. A row of one match byte numbers that byte in bits 7:0. The rows of two match bytes (family RMI: match 0x8000,
mask 0xFC38) number the leading byte in bits 15:8 and the addressing byte in bits 7:0; they are the words of two bytes
whose bits 15:10 are 100000 (log 6). -/
def tableBytes (nbits w : Nat) : List Byte :=
  if nbits = 16 ∧ w / 1024 % 64 = 0b100000 then [byteOf w 1, byteOf w 0, 0x00#8, 0x00#8, 0x00#8, 0x00#8]
  else (List.range Config.maxInstrLen).map (byteOf w)

/-- The instruction the decoder reads from a word of the opcode table. -/
def decodeTableWord (nbits w : Nat) : Option Instr :=
  match decodeBytes (tableBytes nbits w) with
  | .ok i _ => some i
  | .err _ _ => none

end Sys2Proof
end

