-- ==== Sys2Proof/Machine/State.lean ====
section
/-! DEFINITION. The state of the core as plain data (10_state.md; 20_memory.md rule R50), the reasons a step can stop, and the
state after reset (70_reset_and_hazards.md rule R230). -/

namespace Sys2Proof.Machine

/-- The 8 word slots, in the dump order (10_state.md R20, R27). -/
structure Regs where
  ax : Word
  bx : Word
  cx : Word
  dx : Word
  sp : Word
  bp : Word
  si : Word
  di : Word
  deriving DecidableEq, Repr

/-- The instruction image: `len` is L, the addresses 0 to L-1 hold one byte each (20_memory.md R50, R59). `cells` lists the
bytes that are not 0x00 by rising address; an unlisted address below L holds 0x00 (log 4). -/
structure Memory where
  len : Nat
  cells : List Host.Cell
  deriving DecidableEq, Repr

/-- The addresses of a cell list strictly rise. -/
def cellsRise : List Host.Cell → Bool
  | [] => true
  | [_] => true
  | x :: y :: cs => decide (x.1 < y.1) && cellsRise (y :: cs)

/-- The canonical form of an image: L is at most 65535 (R50), addresses strictly rise and are below L, and no listed byte is
the 0x00 that an unlisted address holds. -/
def Memory.wf (m : Memory) : Bool :=
  decide (m.len ≤ Config.maxImageLen) && cellsRise m.cells && m.cells.all fun c => decide (c.1 < m.len) && decide (c.2 ≠ 0#8)

/-- The run status (10_state.md R34). -/
inductive Status where
  | running
  | halted
  | decodeFault (e : DecodeError)
  | unsupported (i : Decoded)
  deriving DecidableEq, Repr

/-- The state of the core. `swImmExt` is the model argument SW_IMM_EXT and `image` the host's input; no step writes either
(30_encoding.md R87, 20_memory.md R50). -/
structure State where
  regs : Regs
  zf : Bool
  sf : Bool
  ip : Word
  status : Status
  cursor : Cursor
  last : Option DecodeResult
  image : Memory
  swImmExt : SwImmExt
  deriving DecidableEq, Repr

/-- Why the machine stops. Each fault carries the state the host reads after it (60_exceptions.md R203, R205, R208); since it
is no next state, no claim about a run holds of it (R205; log 3). -/
inductive Fault where
  /-- Raised by `step` when the decode fails (60_exceptions.md R201, R202): the status names the error, `ip` still holds the
  address of the instruction that failed. Safe: the spec ends the run here (10_state.md R35). -/
  | decodeFault (e : DecodeError) (after : State)
  /-- Raised by the meaning of an instruction with a memory operand and of every branch kind but JNE (R204): the status records
  the instruction, no register or flag has changed. Safe: the spec ends the run here and has a model treat it as a fault
  (R205). -/
  | unsupported (i : Decoded) (after : State)
  deriving DecidableEq, Repr

/-- Why the model gives no meaning. -/
inductive Refusal where
  /-- Raised by `exec` for an instruction that has no meaning yet. Safe. -/
  | notModelled (mnemonic : String)
  /-- Raised by every meaning on a term that no bytes decode to (40_cycle.md R130). `step` never raises it. Safe. -/
  | illFormed (i : Instr)
  /-- Raised by `boot` for an image longer than 65535 bytes (20_memory.md R50; 93_implementation_defined.md). `step` never
  raises it. Safe. -/
  | imageTooLong (len : Nat)
  deriving DecidableEq, Repr

/-- The register file after reset (70_reset_and_hazards.md R230). DESIGN CHOICE of the spec (D12), log 2. -/
def Regs.reset : Regs where
  ax := Config.resetSlot
  bx := Config.resetSlot
  cx := Config.resetSlot
  dx := Config.resetSlot
  sp := Config.resetSlot
  bp := Config.resetSlot
  si := Config.resetSlot
  di := Config.resetSlot

/-- The image with nothing loaded: L = 0. -/
def Memory.empty : Memory := { len := 0, cells := [] }

/-- The machine right after reset (70_reset_and_hazards.md R230), with no image loaded (log 5). -/
def State.reset : State where
  regs := Regs.reset
  zf := Config.resetFlag
  sf := Config.resetFlag
  ip := 0x0000#16
  status := .running
  cursor := { pos := 0, count := 0 }
  last := none
  image := Memory.empty
  swImmExt := Config.swImmExtDefault

end Sys2Proof.Machine
end

