-- ==== Sys2Proof/Machine/Ops.lean ====
section
/-! DEFINITION. The named operations over the image, the registers and the ALU, the outcomes that end a run, and the host's
side of the core (20_memory.md, 10_state.md, 40_cycle.md rule R126, 60_exceptions.md). -/

namespace Sys2Proof.Machine

/-- The three outcomes of this machine. -/
abbrev Result := Host.Outcome State Fault Refusal

/-! ## The image -/

/-- The byte a cell list holds at an address; an unlisted address holds 0x00 (log 4). -/
def cellAt (a : Nat) : List Host.Cell → Byte
  | [] => 0#8
  | (x, v) :: cs => if x = a then v else cellAt a cs

/-- A cell list with one byte changed, in canonical form. -/
def setCell (a : Nat) (b : Byte) : List Host.Cell → List Host.Cell
  | [] => if b = 0#8 then [] else [(a, b)]
  | (x, v) :: cs =>
    if a < x then (if b = 0#8 then (x, v) :: cs else (a, b) :: (x, v) :: cs)
    else if a = x then (if b = 0#8 then cs else (a, b) :: cs)
    else (x, v) :: setCell a b cs

/-- Fetch: the byte at an address below L, none at or beyond it; no wrap (20_memory.md R51; D23). -/
def Memory.fetch (m : Memory) (a : Nat) : Option Byte :=
  if a < m.len then some (cellAt a m.cells) else none

/-- The host's write of one byte of the image it loads; nothing at or beyond L. No step writes the image (R50). -/
def Memory.put (m : Memory) (a : Nat) (b : Byte) : Memory :=
  if a < m.len then { m with cells := setCell a b m.cells } else m

/-- The host's write of consecutive bytes. -/
def Memory.putBytes (m : Memory) (a : Nat) : List Byte → Memory
  | [] => m
  | b :: bs => (m.put a b).putBytes (a + 1) bs

/-- An image of at least n bytes, never longer than the largest one (R50). -/
def Memory.grow (m : Memory) (n : Nat) : Memory := { m with len := max m.len (min n Config.maxImageLen) }

/-- The image of a byte buffer: headerless, addresses from 0 (R50). -/
def Memory.ofBytes (bs : List Byte) : Memory := (Memory.empty.grow bs.length).putBytes 0 bs

/-- Fetch on the machine's image. -/
def State.fetch (s : State) (a : Nat) : Option Byte := s.image.fetch a

/-! ## Registers (10_state.md R21 to R26) -/

/-- A word slot (10_state.md R20). -/
inductive Slot where
  | ax | bx | cx | dx | sp | bp | si | di
  deriving DecidableEq, Repr

/-- The bits of a slot that a name covers: 15:0, 7:0 or 15:8 (R21). -/
inductive Part where
  | full
  | low
  | high
  deriving DecidableEq, Repr

/-- The slot of a register name (R21). -/
def slotOf : RegName → Slot
  | .al | .ah | .ax => .ax
  | .cl | .ch | .cx => .cx
  | .dl | .dh | .dx => .dx
  | .bl | .bh | .bx => .bx
  | .sp => .sp
  | .bp => .bp
  | .si => .si
  | .di => .di

/-- The bits of its slot that a register name covers (R21). -/
def partOf : RegName → Part
  | .al | .cl | .dl | .bl => .low
  | .ah | .ch | .dh | .bh => .high
  | .ax | .cx | .dx | .bx | .sp | .bp | .si | .di => .full

/-- The value of a slot. -/
def Regs.get (r : Regs) : Slot → Word
  | .ax => r.ax
  | .bx => r.bx
  | .cx => r.cx
  | .dx => r.dx
  | .sp => r.sp
  | .bp => r.bp
  | .si => r.si
  | .di => r.di

/-- The register file with one slot changed. -/
def Regs.set (r : Regs) (t : Slot) (v : Word) : Regs :=
  match t with
  | .ax => { r with ax := v }
  | .bx => { r with bx := v }
  | .cx => { r with cx := v }
  | .dx => { r with dx := v }
  | .sp => { r with sp := v }
  | .bp => { r with bp := v }
  | .si => { r with si := v }
  | .di => { r with di := v }

/-- The part of a slot's value that a name covers, as an unsigned number of its width held in 16 bits (R9, R23; log 14). -/
def Part.read (p : Part) (old : Word) : Word :=
  match p with
  | .full => old
  | .low => zext16 (lowByte old)
  | .high => zext16 (highByte old)

/-- A slot's value with one part replaced and the other bits kept (R24, 20_memory.md R55). -/
def Part.write (p : Part) (old v : Word) : Word :=
  match p with
  | .full => v
  | .low => cat (highByte old) (lowByte v)
  | .high => cat (lowByte v) (lowByte old)

/-- Register read `x[n]` (R23). -/
def State.readReg (s : State) (n : RegName) : Word := (partOf n).read (s.regs.get (slotOf n))

/-- Register write `x[n] <- v`, masked to the width of n, the other half of the slot kept (R24, 40_cycle.md R125). -/
def State.writeReg (s : State) (n : RegName) (v : Word) : State :=
  { s with regs := s.regs.set (slotOf n) ((partOf n).write (s.regs.get (slotOf n)) v) }

/-- `ip <- t` (R28). -/
def State.setIp (s : State) (t : Word) : State := { s with ip := t }

/-! ## The ALU (40_cycle.md R126) -/

/-- `mask_n`: a value modulo 2^n (00_scope.md R9). -/
def maskTo (w : Width) (v : Word) : Word :=
  match w with
  | .byte => v &&& 0x00FF#16
  | .word => v

/-- `neg_n`: the two's-complement negation at a width (R9). -/
def neg (w : Width) (v : Word) : Word := maskTo w (-v)

/-- `alu_add`: addition modulo 2^n (R126). -/
def aluAdd (w : Width) (a b : Word) : Word := maskTo w (a + b)

/-- `alu_sub`: addition of the two's-complement negation (R126). -/
def aluSub (w : Width) (a b : Word) : Word := aluAdd w a (neg w b)

/-! ## The parts of a step (40_cycle.md R120) -/

/-- The decode at the instruction pointer (R120). -/
def State.decodeAtIp (s : State) : Read Instr := decode s.fetch s.ip

/-- The halt test: `ip` reaches or exceeds the image length, as unsigned numbers (R121). -/
def State.atEnd (s : State) : Bool := decide (s.image.len ≤ s.ip.toNat)

/-- The step that halts: `status` and nothing else (R121). -/
def State.halt (s : State) : State := { s with status := .halted }

/-- `last <- r`, and the decoder's cursor where the decode left it (R120; 10_state.md R36). -/
def State.recordDecode (s : State) (r : Read Instr) : State :=
  { s with last := some (r.result s.swImmExt), cursor := r.cursor }

/-- `ip <- ip + size`, before the effect (R120; 10_state.md R29). -/
def State.advance (s : State) (size : Nat) : State := s.setIp (s.ip + BitVec.ofNat 16 size)

/-! ## The outcomes that end a run badly (60_exceptions.md)

The core has no trap entry and no return: no outcome saves state or transfers control (R208, R209). -/

/-- `raise` of a decode error: `status <- DecodeFault(e)` and the step ends (R201, R202, R203). -/
def raiseDecodeFault (e : DecodeError) (s : State) : Result :=
  .fault (.decodeFault e { s with status := .decodeFault e })

/-- `raise Unsupported(i)`: `status <- Unsupported(i)` and the step ends; no register or flag changes (R204, R205). -/
def raiseUnsupported (i : Instr) (s : State) : Result :=
  .fault (.unsupported (i.decoded s.swImmExt) { s with status := .unsupported (i.decoded s.swImmExt) })

/-- Runs the effect of an instruction the decoder can return, and refuses every other term (40_cycle.md R130; log 9). -/
def ifWellFormed (i : Instr) (effect : Result) : Result :=
  if i.wellFormed then effect else .refused (.illFormed i)

/-! ## The host's side (00_scope.md R6; 60_exceptions.md R220) -/

/-- A launch: the reset state with the image the host loads and any values in the registers and flags the source gives no
reset value for (70_reset_and_hazards.md R232). -/
def State.launch (regs : Regs) (zf sf : Bool) (image : Memory) (ext : SwImmExt) : State :=
  { State.reset with regs := regs, zf := zf, sf := sf, image := image, swImmExt := ext }

/-- The reset event: every piece of state at its reset value, the image as loaded, the model argument as it is (R230, R231). -/
def resetEvent (s : State) : State :=
  State.launch Regs.reset Config.resetFlag Config.resetFlag s.image s.swImmExt

/-- The boot: the host loads the whole image, then resets; an image longer than 65535 bytes is refused (R50, R233; D13). -/
def boot (bytes : List Byte) (ext : SwImmExt) : Result :=
  if bytes.length ≤ Config.maxImageLen then .next (resetEvent { State.reset with image := Memory.ofBytes bytes, swImmExt := ext })
  else .refused (.imageTooLong bytes.length)

/-- The `decode(a)` port: a result and no state change (30_encoding.md R96). -/
def decodePort (s : State) (a : Word) : DecodeResult := (decode s.fetch a).result s.swImmExt

/-- The `regs` port, in the dump order AX, BX, CX, DX, SP, BP, SI, DI (10_state.md R27). -/
def regsPort (s : State) : List Word :=
  [s.regs.ax, s.regs.bx, s.regs.cx, s.regs.dx, s.regs.sp, s.regs.bp, s.regs.si, s.regs.di]

/-- The `flags` port: ZF, SF (R6). -/
def flagsPort (s : State) : Bool × Bool := (s.zf, s.sf)

end Sys2Proof.Machine
end

