-- ==== Sys2Proof/Machine/Flags.lean ====
section
/-! DEFINITION. The flags register: ZF and SF from a result (40_cycle.md rule R128; 42_arith.md rule R150). -/

namespace Sys2Proof.Machine

/-- ZF of a result: the masked result is 0 (R128). -/
def zeroOf (r : Word) : Bool := decide (r = 0x0000#16)

/-- SF of a result: the top bit of its width (R128). -/
def signOf (w : Width) (r : Word) : Bool := r.getLsbD (w.bits - 1)

/-- `flags(n, r)`: both flags from an n-bit result (R128; 10_state.md R31). -/
def State.setFlags (s : State) (w : Width) (r : Word) : State :=
  { s with zf := zeroOf r, sf := signOf w r }

end Sys2Proof.Machine
end

