-- ==== Sys2Proof/Machine/Operands.lean ====
section
/-! DEFINITION. Reading and writing the operands of an instruction, the effects on them that several instructions share, and
the effective-address calculator (40_cycle.md rules R123 to R127). -/

namespace Sys2Proof.Machine

/-- `val(op)`, or none where the rule raises Unsupported (40_cycle.md R123, R124). -/
def State.val (s : State) : Operand → Option Word
  | .reg n => some (s.readReg n)
  | .imm8 v => some (zext16 v)
  | .imm16 v => some v
  | .mem _ _ => none

/-- `write(op, v)`: only a register is ever written; a memory operand has aborted before (R125). -/
def State.writeOperand (s : State) (op : Operand) (v : Word) : State :=
  match op with
  | .reg n => s.writeReg n v
  | .mem _ _ | .imm8 _ | .imm16 _ => s

/-- The value of a displacement modulo 2^16 (R127). -/
def dispValue : Disp → Word
  | .none => 0x0000#16
  | .d8 k => BitVec.ofInt 16 k
  | .d16 v => v

/-- The effective-address calculator: the sum of the bases and the displacement modulo 2^16 (R127; D17). No step consumes it
(log 12). -/
def effectiveAddress (s : State) (bases : List RegName) (disp : Disp) : Word :=
  bases.foldl (fun sum b => sum + s.readReg b) 0x0000#16 + dispValue disp

/-- Runs an effect on the values of the destination and the source, or raises Unsupported where either is a memory operand,
before anything is written (R124). -/
def onOperands (i : Instr) (dst src : Operand) (s : State) (effect : Word → Word → State) : Result :=
  ifWellFormed i <|
    match s.val dst, s.val src with
    | some a, some b => .next (effect a b)
    | _, _ => raiseUnsupported i s

/-- MOV: the source value into the destination, no flag (41_move.md R140, R141). -/
def moveOperands (i : Instr) (dst src : Operand) (s : State) : Result :=
  onOperands i dst src s fun _ b => s.writeOperand dst b

/-- ADD: the sum into the destination, both flags from it (42_arith.md R151 to R153). -/
def addOperands (i : Instr) (w : Width) (dst src : Operand) (s : State) : Result :=
  onOperands i dst src s fun a b => (s.writeOperand dst (aluAdd w a b)).setFlags w (aluAdd w a b)

/-- SUB: the difference into the destination, both flags from it (42_arith.md R154 to R156). -/
def subOperands (i : Instr) (w : Width) (dst src : Operand) (s : State) : Result :=
  onOperands i dst src s fun a b => (s.writeOperand dst (aluSub w a b)).setFlags w (aluSub w a b)

/-- CMP: both flags from the difference, which is discarded (42_arith.md R157 to R159). -/
def compareOperands (i : Instr) (w : Width) (dst src : Operand) (s : State) : Result :=
  onOperands i dst src s fun a b => s.setFlags w (aluSub w a b)

end Sys2Proof.Machine
end

