-- ==== Sys2Proof/Machine/Arith.lean ====
section
/-! DEFINITION. ADD, SUB and CMP, each in the families RM, ACC and RMI (42_arith.md). -/

namespace Sys2Proof.Machine

/-- ADD, register-or-memory with register (R151). -/
def execAddRm (d : Dir) (rm : Operand) (reg : RegName) (s : State) : Result :=
  addOperands (.addRm d rm reg) reg.width (d.dst rm reg) (d.src rm reg) s

/-- ADD, immediate to accumulator (R152). -/
def execAddAcc (imm : Imm) (s : State) : Result :=
  addOperands (.addAcc imm) imm.width (accumulator imm.width) imm.operand s

/-- ADD, immediate to register-or-memory (R153). -/
def execAddRmi (rm : Operand) (imm : RmiImm) (s : State) : Result :=
  addOperands (.addRmi rm imm) imm.width rm (imm.operand s.swImmExt) s

/-- SUB, register-or-memory with register (R154). -/
def execSubRm (d : Dir) (rm : Operand) (reg : RegName) (s : State) : Result :=
  subOperands (.subRm d rm reg) reg.width (d.dst rm reg) (d.src rm reg) s

/-- SUB, immediate from accumulator (R155). -/
def execSubAcc (imm : Imm) (s : State) : Result :=
  subOperands (.subAcc imm) imm.width (accumulator imm.width) imm.operand s

/-- SUB, immediate from register-or-memory (R156). -/
def execSubRmi (rm : Operand) (imm : RmiImm) (s : State) : Result :=
  subOperands (.subRmi rm imm) imm.width rm (imm.operand s.swImmExt) s

/-- CMP, register-or-memory with register (R157). -/
def execCmpRm (d : Dir) (rm : Operand) (reg : RegName) (s : State) : Result :=
  compareOperands (.cmpRm d rm reg) reg.width (d.dst rm reg) (d.src rm reg) s

/-- CMP, immediate with accumulator (R158). -/
def execCmpAcc (imm : Imm) (s : State) : Result :=
  compareOperands (.cmpAcc imm) imm.width (accumulator imm.width) imm.operand s

/-- CMP, immediate with register-or-memory (R159). -/
def execCmpRmi (rm : Operand) (imm : RmiImm) (s : State) : Result :=
  compareOperands (.cmpRmi rm imm) imm.width rm (imm.operand s.swImmExt) s

end Sys2Proof.Machine
end

