-- ==== Sys2Proof/Machine/Branch.lean ====
section
/-! DEFINITION. The twenty short branch and loop forms (43_branch.md). JNE has an effect; the spec has the other nineteen
raise Unsupported (R172; 92_eei_decisions.md D11; log 18). -/

namespace Sys2Proof.Machine

/-- The branch target: the displacement from the advanced instruction pointer, modulo 2^16 (43_branch.md R170). -/
def State.branchTarget (s : State) (disp : Int) : Word := s.ip + BitVec.ofInt 16 disp

/-- A branch kind beyond the execution boundary: Unsupported, before any effect (R172). -/
def unexecutedBranch (i : Instr) (s : State) : Result := ifWellFormed i (raiseUnsupported i s)

/-- JO (R173). -/
def execJo (disp : Int) (s : State) : Result := unexecutedBranch (.jo disp) s

/-- JNO (R174). -/
def execJno (disp : Int) (s : State) : Result := unexecutedBranch (.jno disp) s

/-- JB (R175). -/
def execJb (disp : Int) (s : State) : Result := unexecutedBranch (.jb disp) s

/-- JNB (R176). -/
def execJnb (disp : Int) (s : State) : Result := unexecutedBranch (.jnb disp) s

/-- JE (R177). -/
def execJe (disp : Int) (s : State) : Result := unexecutedBranch (.je disp) s

/-- JNE: the branch is taken when ZF is clear; no flag or register changes (R178). -/
def execJne (disp : Int) (s : State) : Result :=
  ifWellFormed (.jne disp) (.next (if s.zf then s else s.setIp (s.branchTarget disp)))

/-- JBE (R179). -/
def execJbe (disp : Int) (s : State) : Result := unexecutedBranch (.jbe disp) s

/-- JA (R180). -/
def execJa (disp : Int) (s : State) : Result := unexecutedBranch (.ja disp) s

/-- JS (R181). -/
def execJs (disp : Int) (s : State) : Result := unexecutedBranch (.js disp) s

/-- JNS (R182). -/
def execJns (disp : Int) (s : State) : Result := unexecutedBranch (.jns disp) s

/-- JP (R183). -/
def execJp (disp : Int) (s : State) : Result := unexecutedBranch (.jp disp) s

/-- JNP (R184). -/
def execJnp (disp : Int) (s : State) : Result := unexecutedBranch (.jnp disp) s

/-- JL (R185). -/
def execJl (disp : Int) (s : State) : Result := unexecutedBranch (.jl disp) s

/-- JNL (R186). -/
def execJnl (disp : Int) (s : State) : Result := unexecutedBranch (.jnl disp) s

/-- JLE (R187). -/
def execJle (disp : Int) (s : State) : Result := unexecutedBranch (.jle disp) s

/-- JG (R188). -/
def execJg (disp : Int) (s : State) : Result := unexecutedBranch (.jg disp) s

/-- LOOPNZ (R189). -/
def execLoopnz (disp : Int) (s : State) : Result := unexecutedBranch (.loopnz disp) s

/-- LOOPZ (R190). -/
def execLoopz (disp : Int) (s : State) : Result := unexecutedBranch (.loopz disp) s

/-- LOOP (R191). -/
def execLoop (disp : Int) (s : State) : Result := unexecutedBranch (.loop disp) s

/-- JCXZ (R192). -/
def execJcxz (disp : Int) (s : State) : Result := unexecutedBranch (.jcxz disp) s

end Sys2Proof.Machine
end

