-- ==== Sys2Proof/Machine/Move.lean ====
section
/-! DEFINITION. MOV (41_move.md). -/

namespace Sys2Proof.Machine

/-- MOV, register-or-memory to or from register (R140). -/
def execMovRm (d : Dir) (rm : Operand) (reg : RegName) (s : State) : Result :=
  moveOperands (.movRm d rm reg) (d.dst rm reg) (d.src rm reg) s

/-- MOV, immediate to register (R141). -/
def execMovRegi (reg : RegName) (imm : Imm) (s : State) : Result :=
  moveOperands (.movRegi reg imm) (.reg reg) imm.operand s

end Sys2Proof.Machine
end

