-- ==== Sys2Proof/Machine/Dispatch.lean ====
section
/-! DEFINITION. `execute(i)`: one arm per constructor of Instr (40_cycle.md rule R131). -/

namespace Sys2Proof.Machine

def exec (i : Instr) (s : State) : Host.Outcome State Fault Refusal :=
  match i with
  | .movRm d rm reg => Sys2Proof.Machine.execMovRm d rm reg s
  | .movRegi reg imm => Sys2Proof.Machine.execMovRegi reg imm s
  | .addRm d rm reg => Sys2Proof.Machine.execAddRm d rm reg s
  | .addAcc imm => Sys2Proof.Machine.execAddAcc imm s
  | .addRmi rm imm => Sys2Proof.Machine.execAddRmi rm imm s
  | .subRm d rm reg => Sys2Proof.Machine.execSubRm d rm reg s
  | .subAcc imm => Sys2Proof.Machine.execSubAcc imm s
  | .subRmi rm imm => Sys2Proof.Machine.execSubRmi rm imm s
  | .cmpRm d rm reg => Sys2Proof.Machine.execCmpRm d rm reg s
  | .cmpAcc imm => Sys2Proof.Machine.execCmpAcc imm s
  | .cmpRmi rm imm => Sys2Proof.Machine.execCmpRmi rm imm s
  | .jo disp => Sys2Proof.Machine.execJo disp s
  | .jno disp => Sys2Proof.Machine.execJno disp s
  | .jb disp => Sys2Proof.Machine.execJb disp s
  | .jnb disp => Sys2Proof.Machine.execJnb disp s
  | .je disp => Sys2Proof.Machine.execJe disp s
  | .jne disp => Sys2Proof.Machine.execJne disp s
  | .jbe disp => Sys2Proof.Machine.execJbe disp s
  | .ja disp => Sys2Proof.Machine.execJa disp s
  | .js disp => Sys2Proof.Machine.execJs disp s
  | .jns disp => Sys2Proof.Machine.execJns disp s
  | .jp disp => Sys2Proof.Machine.execJp disp s
  | .jnp disp => Sys2Proof.Machine.execJnp disp s
  | .jl disp => Sys2Proof.Machine.execJl disp s
  | .jnl disp => Sys2Proof.Machine.execJnl disp s
  | .jle disp => Sys2Proof.Machine.execJle disp s
  | .jg disp => Sys2Proof.Machine.execJg disp s
  | .loopnz disp => Sys2Proof.Machine.execLoopnz disp s
  | .loopz disp => Sys2Proof.Machine.execLoopz disp s
  | .loop disp => Sys2Proof.Machine.execLoop disp s
  | .jcxz disp => Sys2Proof.Machine.execJcxz disp s

end Sys2Proof.Machine
end

