-- ==== Sys2Proof/Machine/Step.lean ====
section
/-! DEFINITION. One step of the core (40_cycle.md rule R120), and the placing of a word where the next step fetches it. -/

namespace Sys2Proof.Machine

/-- Decode at `ip`, record the result, advance `ip` by the size, apply the effect (R120). A decode error ends the step
before the advance (60_exceptions.md R203). -/
def decodeAndExecute (s : State) : Host.Outcome State Fault Refusal :=
  match s.decodeAtIp with
  | .err e c => raiseDecodeFault e (s.recordDecode (.err e c))
  | .ok i c => exec i ((s.recordDecode (.ok i c)).advance c.count)

/-- One step (R120). The halt test comes first, as a step of its own (R121; D27); a step in a status other than Running has
no effect (60_exceptions.md R220; log 11). -/
def step (s : State) : Host.Outcome State Fault Refusal :=
  match s.status with
  | .running => if s.atEnd then .next s.halt else decodeAndExecute s
  | .halted | .decodeFault _ | .unsupported _ => .next s

/-- The state with a word of the opcode table, zeros after it, as the bytes of the image at `ip`, and the core Running: it
stands for the host's load of a program (60_exceptions.md R220; log 5, log 19). -/
def State.withFetchWord (s : State) (nbits w : Nat) : State :=
  { s with
    image := (s.image.grow (s.ip.toNat + Config.maxInstrLen)).putBytes s.ip.toNat (tableBytes nbits w)
    status := .running }

end Sys2Proof.Machine
end

