-- ==== Sys2Proof/Machine/Disassembler.lean ====
section
/-! DEFINITION. The text of a decoded image (30_encoding.md rules R100 to R107). The disassembler is host software around the
core and no step uses it (00_scope.md rule R4); its text is modelled so that a decode can be checked against a listing
(log 15). A text is its list of lines. -/

namespace Sys2Proof.Machine

/-- A register name in lower case (R101). -/
def registerText : RegName → String
  | .al => "al" | .cl => "cl" | .dl => "dl" | .bl => "bl" | .ah => "ah" | .ch => "ch" | .dh => "dh" | .bh => "bh"
  | .ax => "ax" | .cx => "cx" | .dx => "dx" | .bx => "bx" | .sp => "sp" | .bp => "bp" | .si => "si" | .di => "di"

/-- The mnemonic of a branch kind (R100). -/
def branchText : BranchKind → String
  | .jo => "jo" | .jno => "jno" | .jb => "jb" | .jnb => "jnb" | .je => "je" | .jne => "jne" | .jbe => "jbe" | .ja => "ja"
  | .js => "js" | .jns => "jns" | .jp => "jp" | .jnp => "jnp" | .jl => "jl" | .jnl => "jnl" | .jle => "jle" | .jg => "jg"
  | .loopnz => "loopnz" | .loopz => "loopz" | .loop => "loop" | .jcxz => "jcxz"

/-- The bases of a memory operand, joined (R101). -/
def basesText : List RegName → String
  | [] => ""
  | [b] => registerText b
  | b :: bs => registerText b ++ " + " ++ basesText bs

/-- A displacement after the bases: nothing for 0, else its sign and magnitude (R101; D29). -/
def offsetText (k : Int) : String :=
  if k = 0 then "" else if k < 0 then " - " ++ toString k.natAbs else " + " ++ toString k.natAbs

/-- A memory operand in brackets; a direct address prints unsigned, alone (R101; D29). -/
def memoryText (bases : List RegName) (disp : Disp) : String :=
  match bases, disp with
  | [], .d16 v => "[" ++ toString v.toNat ++ "]"
  | bases, .none => "[" ++ basesText bases ++ "]"
  | bases, .d8 k => "[" ++ basesText bases ++ offsetText k ++ "]"
  | bases, .d16 v => "[" ++ basesText bases ++ offsetText v.toInt ++ "]"

/-- An operand; an immediate prints as an unsigned decimal number (R101). -/
def operandText : Operand → String
  | .reg n => registerText n
  | .mem bases disp => memoryText bases disp
  | .imm8 v => toString v.toNat
  | .imm16 v => toString v.toNat

/-- The size keyword before a memory destination with an immediate source (R101). -/
def sizeKeyword (dst src : Operand) : String :=
  match dst, src with
  | .mem _ _, .imm8 _ => "byte "
  | .mem _ _, .imm16 _ => "word "
  | _, _ => ""

/-- A two-operand instruction: destination first (R100, R101). -/
def pairText (mnemonic : String) (dst src : Operand) : String :=
  mnemonic ++ " " ++ sizeKeyword dst src ++ operandText dst ++ ", " ++ operandText src

/-- The label of a target: its place in the order in which targets are first met (R103; D20). -/
def labelText (labels : List Word) (target : Word) : String := "label" ++ toString (labels.idxOf target)

/-- The absolute target of a branch whose next instruction stands at an address (R103; 43_branch.md R170). -/
def targetFrom (after : Word) (disp : Int) : Word := after + BitVec.ofInt 16 disp

/-- One instruction's line (R100, R101, R104). -/
def instructionText (labels : List Word) (address : Word) : Decoded → String
  | .mov dst src _ => pairText "mov" dst src
  | .add dst src _ => pairText "add" dst src
  | .sub dst src _ => pairText "sub" dst src
  | .cmp dst src _ => pairText "cmp" dst src
  | .branch k disp size =>
    branchText k ++ " " ++ labelText labels (targetFrom (address + BitVec.ofNat 16 size) disp)

/-- The decode of a whole image in order, from an address, stopping at the first error (R96, R103, R107). Each
instruction takes at least one byte, so the image length is fuel enough. -/
def sweep (m : Memory) (ext : SwImmExt) : Nat → Nat → Except DecodeError (List (Word × Decoded))
  | 0, _ => .ok []
  | fuel + 1, a =>
    if m.len ≤ a then .ok []
    else
      match decode m.fetch (BitVec.ofNat 16 a) with
      | .err e _ => .error e
      | .ok i c =>
        match sweep m ext fuel (a + c.count) with
        | .error e => .error e
        | .ok rest => .ok ((BitVec.ofNat 16 a, i.decoded ext) :: rest)

/-- Pass 1: the branch targets in the order in which they are first met (R103). -/
def labelTargets (seen : List Word) : List (Word × Decoded) → List Word
  | [] => seen
  | (a, .branch _ disp size) :: rest =>
    if targetFrom (a + BitVec.ofNat 16 size) disp ∈ seen then labelTargets seen rest
    else labelTargets (seen ++ [targetFrom (a + BitVec.ofNat 16 size) disp]) rest
  | (_, .mov _ _ _) :: rest | (_, .add _ _ _) :: rest | (_, .sub _ _ _) :: rest | (_, .cmp _ _ _) :: rest =>
    labelTargets seen rest

/-- Pass 2: a declaration line before an instruction that is a target, then the instruction (R104). -/
def listingLines (labels : List Word) : List (Word × Decoded) → List String
  | [] => []
  | (a, d) :: rest =>
    (if a ∈ labels then [labelText labels a ++ ":"] else []) ++ instructionText labels a d :: listingLines labels rest

/-- The disassembly of an image: the header line and the listing, or the decode error that stops it (R102 to R107). -/
def disassemble (m : Memory) (ext : SwImmExt) : Except DecodeError (List String) :=
  match sweep m ext m.len 0 with
  | .error e => .error e
  | .ok ds => .ok ("bits 16" :: listingLines (labelTargets [] ds) ds)

end Sys2Proof.Machine
end

