-- ==== Sys2Proof/Safety.lean ====
section
/-! DEFINITION. The terms claims use: what an instruction is executed on, what it may write, what a state of a run satisfies,
and when a run is safe (40_cycle.md, 60_exceptions.md rule R219). -/

namespace Sys2Proof.Machine

/-- The state the host reads after a step: the next state, or the state a fault carries (60_exceptions.md R208). -/
def stateAfter : Result → Option State
  | .next t => some t
  | .fault (.decodeFault _ t) => some t
  | .fault (.unsupported _ t) => some t
  | .refused _ => none

/-- A memory operand (30_encoding.md R83). -/
def isMemory : Operand → Bool
  | .mem _ _ => true
  | .reg _ | .imm8 _ | .imm16 _ => false

/-- The instructions with an execution effect: no memory operand, and no branch kind but JNE (40_cycle.md R124, R131;
43_branch.md R172). -/
def isExecuted : Instr → Bool
  | .movRm _ rm _ | .addRm _ rm _ | .subRm _ rm _ | .cmpRm _ rm _ => !isMemory rm
  | .addRmi rm _ | .subRmi rm _ | .cmpRmi rm _ => !isMemory rm
  | .movRegi _ _ | .addAcc _ | .subAcc _ | .cmpAcc _ | .jne _ => true
  | .jo _ | .jno _ | .jb _ | .jnb _ | .je _ | .jbe _ | .ja _ | .js _ | .jns _ | .jp _ | .jnp _ | .jl _ | .jnl _ | .jle _
  | .jg _ | .loopnz _ | .loopz _ | .loop _ | .jcxz _ => false

/-- The register an operand is, if it is one. -/
def registerOf : Operand → Option RegName
  | .reg n => some n
  | .mem _ _ | .imm8 _ | .imm16 _ => none

/-- The register an instruction writes: the destination of MOV, ADD and SUB; CMP and the branches write none
(42_arith.md R157; 43_branch.md R171). -/
def writtenRegister : Instr → Option RegName
  | .movRm d rm reg | .addRm d rm reg | .subRm d rm reg => registerOf (d.dst rm reg)
  | .movRegi reg _ => some reg
  | .addAcc imm | .subAcc imm => registerOf (accumulator imm.width)
  | .addRmi rm _ | .subRmi rm _ => registerOf rm
  | .cmpRm _ _ _ | .cmpAcc _ | .cmpRmi _ _ => none
  | .jo _ | .jno _ | .jb _ | .jnb _ | .je _ | .jne _ | .jbe _ | .ja _ | .js _ | .jns _ | .jp _ | .jnp _ | .jl _ | .jnl _
  | .jle _ | .jg _ | .loopnz _ | .loopz _ | .loop _ | .jcxz _ => none

/-- Two names share a bit of a slot (10_state.md R21). -/
def overlaps (n m : RegName) : Bool :=
  decide (slotOf n = slotOf m) && (decide (partOf n = partOf m) || decide (partOf n = .full) || decide (partOf m = .full))

/-- The image holds these bytes from `ip` on: the instruction the next step fetches (20_memory.md R51). -/
def bytesAtIp (s : State) (bs : List Byte) : Prop := ∀ k, k < bs.length → s.fetch (s.ip.toNat + k) = bs[k]?

/-- The state an instruction's effect starts from: decoded, recorded, `ip` advanced by the size (40_cycle.md R120). -/
def afterDecode (s : State) (i : Instr) (size : Nat) : State :=
  { s with
    last := some (.ok (i.decoded s.swImmExt))
    cursor := { pos := s.ip.toNat + size, count := size }
    ip := s.ip + BitVec.ofNat 16 size }

/-- The n-bit sum of two values, computed on numbers (42_arith.md R160). -/
def sumOf (w : Width) (a b : Word) : Word := BitVec.ofNat 16 ((a.toNat + b.toNat) % 2 ^ w.bits)

/-- The n-bit difference of two n-bit values, computed on numbers (42_arith.md R160). -/
def differenceOf (w : Width) (a b : Word) : Word := BitVec.ofNat 16 ((a.toNat + (2 ^ w.bits - b.toNat)) % 2 ^ w.bits)

/-- The state with both flags from an n-bit result, read as a number (42_arith.md R150). -/
def flagsFrom (s : State) (w : Width) (r : Word) : State :=
  { s with zf := decide (r.toNat = 0), sf := decide (2 ^ (w.bits - 1) ≤ r.toNat) }

/-- The instruction carries a w = 1, s = 1 immediate of 0x80 or more, the one on which SW_IMM_EXT bears (30_encoding.md R87). -/
def dependsOnExtension : Instr → Bool
  | .addRmi _ (.short v) | .subRmi _ (.short v) | .cmpRmi _ (.short v) => decide (0x80 ≤ v.toNat)
  | .addRmi _ (.byte _ _) | .subRmi _ (.byte _ _) | .cmpRmi _ (.byte _ _) => false
  | .addRmi _ (.word _) | .subRmi _ (.word _) | .cmpRmi _ (.word _) => false
  | .movRm _ _ _ | .movRegi _ _ | .addRm _ _ _ | .addAcc _ | .subRm _ _ _ | .subAcc _ | .cmpRm _ _ _ | .cmpAcc _ => false
  | .jo _ | .jno _ | .jb _ | .jnb _ | .je _ | .jne _ | .jbe _ | .ja _ | .js _ | .jns _ | .jp _ | .jnp _ | .jl _ | .jnl _
  | .jle _ | .jg _ | .loopnz _ | .loopz _ | .loop _ | .jcxz _ => false

/-- A word is what the one immediate byte of the w = 1, s = 1 form stands for: the same number under `zero`, the same signed
number under `sign` (30_encoding.md R87; D9). Below 0x80 the two agree. -/
def isShortImmediate (s : State) (b : Byte) (v : Word) : Prop :=
  (s.swImmExt = .zero → v.toNat = b.toNat) ∧ (s.swImmExt = .sign → v.toInt = b.toInt) ∧ (b.toNat < 0x80 → v.toNat = b.toNat)

/-- The width and the n-bit result from which an instruction sets the flags; none where it writes no flag
(10_state.md R31; 42_arith.md R150). Operands without a value do not occur where the instruction is executed. -/
def flagResult (s : State) : Instr → Option (Width × Word)
  | .addRm d rm reg => some (reg.width, sumOf reg.width ((s.val (d.dst rm reg)).getD 0) ((s.val (d.src rm reg)).getD 0))
  | .addAcc imm => some (imm.width, sumOf imm.width ((s.val (accumulator imm.width)).getD 0) ((s.val imm.operand).getD 0))
  | .addRmi rm imm => some (imm.width, sumOf imm.width ((s.val rm).getD 0) ((s.val (imm.operand s.swImmExt)).getD 0))
  | .subRm d rm reg | .cmpRm d rm reg =>
    some (reg.width, differenceOf reg.width ((s.val (d.dst rm reg)).getD 0) ((s.val (d.src rm reg)).getD 0))
  | .subAcc imm | .cmpAcc imm =>
    some (imm.width, differenceOf imm.width ((s.val (accumulator imm.width)).getD 0) ((s.val imm.operand).getD 0))
  | .subRmi rm imm | .cmpRmi rm imm =>
    some (imm.width, differenceOf imm.width ((s.val rm).getD 0) ((s.val (imm.operand s.swImmExt)).getD 0))
  | .movRm _ _ _ | .movRegi _ _ => none
  | .jo _ | .jno _ | .jb _ | .jnb _ | .je _ | .jne _ | .jbe _ | .ja _ | .js _ | .jns _ | .jp _ | .jnp _ | .jl _ | .jnl _
  | .jle _ | .jg _ | .loopnz _ | .loopz _ | .loop _ | .jcxz _ => none

/-- What holds of every state of a run: a canonical image of at most 65535 bytes, a cursor inside it, and a status that says
why the run stopped (10_state.md R34; 40_cycle.md R121; 60_exceptions.md R201, R204). -/
structure State.Inv (s : State) : Prop where
  image_wf : s.image.wf = true
  cursor_in_image : s.cursor.pos ≤ s.image.len
  count_bounded : s.cursor.count ≤ Config.maxInstrLen
  halted_past_end : s.status = .halted → s.image.len ≤ s.ip.toNat
  fault_is_last : ∀ e, s.status = .decodeFault e → s.last = some (.err e)
  unsupported_is_last : ∀ d, s.status = .unsupported d → s.last = some (.ok d)
  size_is_count : ∀ d, s.last = some (.ok d) → d.size = s.cursor.count

/-- A run of k steps that no fault or refusal ends. -/
def RunsSafely (k : Nat) (s : State) : Prop := ∃ t, Sys2Proof.core.run k s = .next t

/-- A run that ends well: some number of steps leads to Halted (60_exceptions.md R219). -/
def EndsWell (s : State) : Prop := ∃ k t, Sys2Proof.core.run k s = .next t ∧ t.status = .halted

end Sys2Proof.Machine
end

