-- ==== Sys2Proof/Certificates/Slice0/Obligations.lean ====
section
/-! DEFINITION. The statements for the provers. OBLIGATIONS.json lists them with the rules of spec/ they rest on. -/

open Sys2Proof Sys2Proof.Machine

/-! ## Encoding -/

/-- Words written out from 30_encoding.md decode to their instructions: one or more of each family (R74 to R89; the byte values
are the spec's, D1 to D6). -/
def Obligations.DecodesWrittenWords : Prop :=
  decodeBytes [0b00111000#8, 0b11011000#8] = .ok (.cmpRm .toRm (.reg .al) .bl) ⟨2, 2⟩ ∧
  decodeBytes [0b00111010#8, 0b11000011#8] = .ok (.cmpRm .toReg (.reg .bl) .al) ⟨2, 2⟩ ∧
  decodeBytes [0b10001011#8, 0b00011110#8, 0x34#8, 0x12#8] = .ok (.movRm .toReg (.mem [] (.d16 0x1234#16)) .bx) ⟨4, 4⟩ ∧
  decodeBytes [0b10111000#8, 0x34#8, 0x12#8] = .ok (.movRegi .ax (.imm16 0x1234#16)) ⟨3, 3⟩ ∧
  decodeBytes [0b00101101#8, 0x05#8, 0x00#8] = .ok (.subAcc (.imm16 0x0005#16)) ⟨3, 3⟩ ∧
  decodeBytes [0b10000001#8, 0b10101110#8, 0x00#8, 0x01#8, 0x34#8, 0x12#8] =
    .ok (.subRmi (.mem [.bp] (.d16 0x0100#16)) (.word 0x1234#16)) ⟨6, 6⟩ ∧
  decodeBytes [0b01110101#8, 0xFB#8] = .ok (.jne (-5)) ⟨2, 2⟩ ∧
  decodeBytes [0b11100010#8, 0xFE#8] = .ok (.loop (-2)) ⟨2, 2⟩

/-- The dispatch of every leading byte is the table of 30_encoding.md R91 (its byte values: D1, D8, D26). -/
def Obligations.DispatchIsTheLeadingByteTable : Prop :=
  ∀ b : Byte,
    dispatch b =
      if b.toNat ≤ 0x03 then .rm (.arith .add) (dirOf b) (widthOf b)
      else if b.toNat ≤ 0x05 then .acc .add (widthOf b)
      else if b.toNat ≤ 0x27 then .none
      else if b.toNat ≤ 0x2B then .rm (.arith .sub) (dirOf b) (widthOf b)
      else if b.toNat ≤ 0x2D then .acc .sub (widthOf b)
      else if b.toNat ≤ 0x37 then .none
      else if b.toNat ≤ 0x3B then .rm (.arith .cmp) (dirOf b) (widthOf b)
      else if b.toNat ≤ 0x3D then .acc .cmp (widthOf b)
      else if b.toNat ≤ 0x6F then .none
      else if b.toNat ≤ 0x7F then .br (conditionKind (b.extractLsb 3 0))
      else if b.toNat ≤ 0x83 then .rmi (b.getLsbD 1) (widthOf b)
      else if b.toNat ≤ 0x87 then .none
      else if b.toNat ≤ 0x8B then .rm .mov (dirOf b) (widthOf b)
      else if b.toNat ≤ 0xAF then .none
      else if b.toNat ≤ 0xBF then .regi (Width.ofBit (b.getLsbD 3)) (b.extractLsb 2 0)
      else if b.toNat ≤ 0xDF then .none
      else if b.toNat ≤ 0xE3 then .br (loopKind (b.extractLsb 1 0))
      else .none

/-- For every instruction the decoder can return, the decode of its bytes, wherever they stand and whatever follows them, is
the instruction, and the cursor has counted its size. -/
def Obligations.DecodeInvertsEncode : Prop :=
  ∀ (i : Instr) (fetch : Nat → Option Byte) (a : Word), i.wellFormed = true →
    (∀ k, k < (encode i).length → fetch (a.toNat + k) = (encode i)[k]?) →
    decode fetch a = .ok i ⟨a.toNat + i.size, i.size⟩

/-- Whatever decodes is an instruction the decoder may return, and the bytes it was read from are its encoding, all of it: no bit
of an encoding is lost, and the cursor has counted exactly those bytes. -/
def Obligations.EncodeInvertsDecode : Prop :=
  ∀ (fetch : Nat → Option Byte) (a : Word) (i : Instr) (c : Cursor), decode fetch a = .ok i c →
    i.wellFormed = true ∧ c = ⟨a.toNat + i.size, i.size⟩ ∧
    (encode i).length = i.size ∧ ∀ k, k < i.size → fetch (a.toNat + k) = (encode i)[k]?

/-- A decode reads no byte after its instruction: an image that agrees on the counted bytes decodes alike. -/
def Obligations.DecodeReadsOnlyItsBytes : Prop :=
  ∀ (fetch other : Nat → Option Byte) (a : Word) (i : Instr) (c : Cursor), decode fetch a = .ok i c →
    (∀ x, a.toNat ≤ x → x < a.toNat + c.count → other x = fetch x) → decode other a = .ok i c

/-- The size of a decoded instruction by family, from the fields of the bytes themselves (30_encoding.md R71, R77, R87). -/
def Obligations.DecodedSizeByFamily : Prop :=
  ∀ (fetch : Nat → Option Byte) (a : Word) (i : Instr) (c : Cursor), decode fetch a = .ok i c →
    ∃ b0 b1 : Byte, fetch a.toNat = some b0 ∧ fetch (a.toNat + 1) = some b1 ∧
      let dispbytes : Nat :=
        if modField b1 = 0b11#2 then 0
        else if modField b1 = 0b10#2 then 2
        else if modField b1 = 0b01#2 then 1
        else if rmField b1 = 0b110#3 then 2 else 0
      c.count =
        match dispatch b0 with
        | .rm _ _ _ => 2 + dispbytes
        | .acc _ w => if w = .byte then 2 else 3
        | .rmi s w => 2 + dispbytes + (if w = .byte then 1 else if s = false then 2 else 1)
        | .regi w _ => if w = .byte then 2 else 3
        | .br _ => 2
        | .none => 0

/-- UnknownInstruction is reported exactly for an unmapped leading byte, and for a family-RMI leading byte whose addressing byte
has one of the five invalid selectors, whatever follows; it carries the leading byte and its address (R93, R94; D7, D8, D21). -/
def Obligations.UnknownInstructionExactly : Prop :=
  ∀ (fetch : Nat → Option Byte) (a address : Word) (b : Byte),
    (∃ c, decode fetch a = .err (.unknownInstruction b address) c) ↔
      address = a ∧ fetch a.toNat = some b ∧
        (dispatch b = .none ∨
          (0x80 ≤ b.toNat ∧ b.toNat ≤ 0x83 ∧
            ∃ m, fetch (a.toNat + 1) = some m ∧ regField m ∈ [1#3, 2#3, 3#3, 4#3, 6#3]))

/-- An instruction of which the image holds only the first n bytes is EndOfInstructionStream, with those n bytes counted. -/
def Obligations.TruncatedInstructionIsEndOfStream : Prop :=
  ∀ (i : Instr) (fetch : Nat → Option Byte) (a : Word) (n : Nat), i.wellFormed = true → n < i.size →
    (∀ k, k < n → fetch (a.toNat + k) = (encode i)[k]?) → fetch (a.toNat + n) = none →
    decode fetch a = .err .endOfInstructionStream ⟨a.toNat + n, n⟩

/-- The w = 1, s = 1 form of family RMI, `83 /sel ib`: the immediate is the zero-extended byte under `zero`, the sign-extended
byte under `sign`, and one value for both below 0x80. First the register destination under each of the three selectors, from
the three bytes, then every instruction with this leading byte, a memory destination too, whose last byte is the immediate
(30_encoding.md R87; D9, D10, log 1; selectors and leading byte: log 7). -/
def Obligations.ShortImmediateUnderBothExtensions : Prop :=
  (∀ (s : State) (a : Word) (r : BitVec 3) (b : Byte),
    s.fetch a.toNat = some 0x83#8 → s.fetch (a.toNat + 2) = some b →
    ∃ v : Word, isShortImmediate s b v ∧
      (s.fetch (a.toNat + 1) = some (addressingByte 0b11#2 0b000#3 r) →
        decodePort s a = .ok (.add (.reg (regName .word r)) (.imm16 v) 3)) ∧
      (s.fetch (a.toNat + 1) = some (addressingByte 0b11#2 0b101#3 r) →
        decodePort s a = .ok (.sub (.reg (regName .word r)) (.imm16 v) 3)) ∧
      (s.fetch (a.toNat + 1) = some (addressingByte 0b11#2 0b111#3 r) →
        decodePort s a = .ok (.cmp (.reg (regName .word r)) (.imm16 v) 3))) ∧
  ∀ (s : State) (a : Word) (d : Decoded), s.fetch a.toNat = some 0x83#8 → decodePort s a = .ok d →
    ∃ (m b : Byte) (dst : Operand) (v : Word), s.fetch (a.toNat + 1) = some m ∧ s.fetch (a.toNat + (d.size - 1)) = some b ∧
      isShortImmediate s b v ∧
      ((regField m = 0b000#3 ∧ d = .add dst (.imm16 v) d.size) ∨ (regField m = 0b101#3 ∧ d = .sub dst (.imm16 v) d.size) ∨
        (regField m = 0b111#3 ∧ d = .cmp dst (.imm16 v) d.size))

/-! ## Reset, boot and the image -/

/-- The state after reset. `ip` and `status` are the source's own; the registers and flags at zero are the spec's choice (D12,
DESIGN CHOICE, log 2), `last` at none is the spec's choice (D14), SW_IMM_EXT at `zero` is its default (D9, DESIGN CHOICE,
log 1), and the empty image is the model's (DESIGN CHOICE, log 5). -/
def Obligations.ResetState : Prop :=
  State.reset.ip = 0x0000#16 ∧ State.reset.status = .running ∧ State.reset.cursor = ⟨0, 0⟩ ∧ State.reset.last = none ∧
  regsPort State.reset = List.replicate 8 0x0000#16 ∧ flagsPort State.reset = (false, false) ∧
  State.reset.swImmExt = .zero ∧ ∀ a, State.reset.fetch a = none

/-- The reset event keeps the image, every byte of it (R231). All else is as after reset (R230, whose zeros are D12, DESIGN
CHOICE, log 2), but the model argument SW_IMM_EXT, which it keeps (DESIGN CHOICE, log 1). A boot loads the image first and
then resets (R231). -/
def Obligations.ResetKeepsImage : Prop :=
  (∀ s : State, resetEvent s = { State.reset with image := s.image, swImmExt := s.swImmExt } ∧
    (∀ a, (resetEvent s).fetch a = s.fetch a) ∧ (resetEvent s).image.len = s.image.len) ∧
  ∀ (bytes : List Byte) (ext : SwImmExt), bytes.length ≤ 65535 →
    ∃ s : State, (∀ a, s.fetch a = bytes[a]?) ∧ boot bytes ext = .next (resetEvent s)

/-- A boot with at most 65535 bytes gives a state that satisfies the invariant, with L bytes fetched as given and none at or
beyond L; a longer image is refused (R50, R233; D13). -/
def Obligations.BootLoadsTheImage : Prop :=
  (∀ (bytes : List Byte) (ext : SwImmExt), bytes.length ≤ 65535 →
    ∃ s, boot bytes ext = .next s ∧ s.Inv ∧ s.image.len = bytes.length ∧ (∀ a, s.fetch a = bytes[a]?) ∧
      s.status = .running ∧ s.ip = 0x0000#16 ∧ s.swImmExt = ext) ∧
  (∀ (bytes : List Byte) (ext : SwImmExt), 65535 < bytes.length → boot bytes ext = .refused (.imageTooLong bytes.length))

/-- Canonical images that fetch alike are equal. -/
def Obligations.CanonicalImagesAreDetermined : Prop :=
  ∀ m n : Memory, m.wf = true → n.wf = true → (∀ a, m.fetch a = n.fetch a) → m = n

/-- No step writes the image, in a next state and in the state a fault leaves (R63, R236), nor the model argument SW_IMM_EXT
(DESIGN CHOICE, log 1). -/
def Obligations.NoStepWritesTheImage : Prop :=
  ∀ s t : State, stateAfter (step s) = some t →
    t.image = s.image ∧ t.swImmExt = s.swImmExt ∧ ∀ a, t.fetch a = s.fetch a

/-! ## The step -/

/-- A step that finds `ip >= L` sets Halted and changes nothing else (R121; that the test begins every step is D27). -/
def Obligations.StepAtEndHalts : Prop :=
  ∀ s : State, s.status = .running → s.image.len ≤ s.ip.toNat → step s = .next { s with status := .halted }

/-- A step runs the decoded instruction: when the decode at `ip` gives an instruction, the step is its execution in the state
with the result recorded, the cursor where the decode left it and `ip` advanced by the counted size. -/
def Obligations.StepRunsDecodedInstruction : Prop :=
  ∀ (s : State) (i : Instr) (c : Cursor), s.status = .running → s.ip.toNat < s.image.len → decode s.fetch s.ip = .ok i c →
    step s = exec i { s with
      last := some (.ok (i.decoded s.swImmExt))
      cursor := c
      ip := s.ip + BitVec.ofNat 16 c.count }

/-- When the image holds the bytes of a well-formed instruction at `ip`, the step is its execution after the decode. -/
def Obligations.StepRunsEncodedInstruction : Prop :=
  ∀ (s : State) (i : Instr), s.status = .running → i.wellFormed = true → bytesAtIp s (encode i) →
    step s = exec i (afterDecode s i i.size)

/-- A decode error ends the step with the fault that names it: `ip`, the registers, the flags and the image are as before, the
status names the error and `last` holds it. The cursor is the decoder's own (R203; log 10). -/
def Obligations.StepOnDecodeError : Prop :=
  ∀ (s : State) (e : DecodeError) (c : Cursor), s.status = .running → s.ip.toNat < s.image.len →
    decode s.fetch s.ip = .err e c →
    step s = .fault (.decodeFault e { s with status := .decodeFault e, last := some (.err e), cursor := c })

/-- The status transitions: reset sets Running; a step from Running leaves Running or sets Halted in a next state, and sets
DecodeFault or Unsupported in the state of a fault (R35; that these two are faults is DEDUCED, log 3). A step in another status
has no effect (R220); that it answers the same state as a next state is DEDUCED, log 11. -/
def Obligations.StatusTransitions : Prop :=
  (∀ s, (resetEvent s).status = .running) ∧
  (∀ s, s.status ≠ .running → step s = .next s) ∧
  (∀ s t, s.status = .running → step s = .next t → t.status = .running ∨ t.status = .halted) ∧
  (∀ s e t, step s = .fault (.decodeFault e t) → s.status = .running ∧ t.status = .decodeFault e) ∧
  (∀ s d t, step s = .fault (.unsupported d t) → s.status = .running ∧ t.status = .unsupported d)

/-- A step from Running has one of four outcomes: it continues, it halts, it ends in a decode error, it ends in Unsupported;
the status says which, and no step is ever refused (R200; that the last two are faults is DEDUCED, log 3). -/
def Obligations.StepHasOneOfFourOutcomes : Prop :=
  ∀ s : State, s.status = .running →
    (∃ t, step s = .next t ∧ t.status = .running) ∨
    (∃ t, step s = .next t ∧ t.status = .halted) ∨
    (∃ e t, step s = .fault (.decodeFault e t) ∧ t.status = .decodeFault e) ∨
    (∃ d t, step s = .fault (.unsupported d t) ∧ t.status = .unsupported d)

/-- The advance of `ip` by the size never wraps in a canonical image (R52). -/
def Obligations.AdvanceNeverWraps : Prop :=
  ∀ (s : State) (i : Instr) (c : Cursor), s.image.wf = true → decode s.fetch s.ip = .ok i c →
    s.ip.toNat + c.count ≤ s.image.len ∧ (s.ip + BitVec.ofNat 16 c.count).toNat = s.ip.toNat + c.count

/-- The invariant holds after reset, and after a reset with any canonical image and any launch values. -/
def Obligations.InvariantAtReset : Prop :=
  State.reset.Inv ∧
  ∀ (r : Regs) (z f : Bool) (m : Memory) (e : SwImmExt), m.wf = true → (State.launch r z f m e).Inv

/-- Every step keeps the invariant, in its next state and in the state a fault leaves. -/
def Obligations.EveryStepKeepsTheInvariant : Prop :=
  ∀ s t : State, s.Inv → stateAfter (step s) = some t → t.Inv

/-- The state a fault leaves differs from the state before the step in status, `last`, the cursor and, for Unsupported, `ip`;
no register, flag or image byte has changed (R203, R205; D15). -/
def Obligations.FaultsLeaveRegistersAndFlags : Prop :=
  ∀ s t : State, (∃ e, step s = .fault (.decodeFault e t)) ∨ (∃ d, step s = .fault (.unsupported d t)) →
    t.regs = s.regs ∧ t.zf = s.zf ∧ t.sf = s.sf ∧ t.image = s.image ∧ ((∃ e, t.status = .decodeFault e) → t.ip = s.ip)

/-- `75 FE` with ZF clear jumps to itself for ever: after any number of steps the core runs at the same address (R239). -/
def Obligations.JneToItselfHangs : Prop :=
  ∀ (k : Nat) (s : State), s.status = .running → s.zf = false → bytesAtIp s [0x75#8, 0xFE#8] →
    ∃ t, Sys2Proof.core.run k s = .next t ∧ t.status = .running ∧ t.ip = s.ip ∧ t.regs = s.regs ∧ t.zf = false

/-! ## Registers -/

/-- A write to a byte name changes its half of the slot and keeps the other; a write to a word name sets the slot; no other
slot and nothing else of the state changes (R24). -/
def Obligations.RegisterWriteKeepsTheOtherHalf : Prop :=
  (∀ q ∈ [(RegName.al, RegName.ah, RegName.ax, Slot.ax), (.cl, .ch, .cx, .cx), (.dl, .dh, .dx, .dx), (.bl, .bh, .bx, .bx)],
    ∀ (s : State) (v : Word),
      s.writeReg q.1 v = { s with regs := s.regs.set q.2.2.2 (s.regs.get q.2.2.2 &&& 0xFF00#16 ||| v &&& 0x00FF#16) } ∧
      s.writeReg q.2.1 v =
        { s with regs := s.regs.set q.2.2.2 ((v &&& 0x00FF#16) <<< 8 ||| s.regs.get q.2.2.2 &&& 0x00FF#16) } ∧
      s.writeReg q.2.2.1 v = { s with regs := s.regs.set q.2.2.2 v }) ∧
  (∀ q ∈ [(RegName.sp, Slot.sp), (.bp, .bp), (.si, .si), (.di, .di)],
    ∀ (s : State) (v : Word), s.writeReg q.1 v = { s with regs := s.regs.set q.2 v })

/-- A byte name reads bits 7:0 or 15:8 of its slot, a word name the whole slot (R23). -/
def Obligations.RegisterReadTakesItsBits : Prop :=
  (∀ q ∈ [(RegName.al, RegName.ah, RegName.ax, Slot.ax), (.cl, .ch, .cx, .cx), (.dl, .dh, .dx, .dx), (.bl, .bh, .bx, .bx)],
    ∀ s : State,
      (s.readReg q.1).toNat = (s.regs.get q.2.2.2).toNat % 256 ∧
      (s.readReg q.2.1).toNat = (s.regs.get q.2.2.2).toNat / 256 ∧
      s.readReg q.2.2.1 = s.regs.get q.2.2.2) ∧
  (∀ q ∈ [(RegName.sp, Slot.sp), (.bp, .bp), (.si, .si), (.di, .di)], ∀ s : State, s.readReg q.1 = s.regs.get q.2)

/-- A register read after a write: the written value modulo 2^width under the written name, the old value under every name that
shares no bit with it (R26). -/
def Obligations.RegisterReadAfterWrite : Prop :=
  ∀ (s : State) (n m : RegName) (v : Word),
    ((s.writeReg n v).readReg n).toNat = v.toNat % 2 ^ n.width.bits ∧
    (overlaps n m = false → (s.writeReg n v).readReg m = s.readReg m)

/-- The `regs` port reads the 8 word names in the dump order (R27; D28). -/
def Obligations.RegistersInDumpOrder : Prop :=
  ∀ s : State, regsPort s = [.ax, .bx, .cx, .dx, .sp, .bp, .si, .di].map s.readReg

/-! ## ALU, flags, effective address -/

/-- ADD gives (a + b) mod 2^n, SUB and CMP give (a - b) mod 2^n, as integers (R160). -/
def Obligations.AluIsModularArithmetic : Prop :=
  ∀ (w : Width) (a b : Word),
    (aluAdd w a b).toNat = (a.toNat + b.toNat) % 2 ^ w.bits ∧
    ((aluSub w a b).toNat : Int) = ((a.toNat : Int) - (b.toNat : Int)) % 2 ^ w.bits

/-- The flag function: ZF iff the n-bit result is 0, SF iff its bit n-1 is set; nothing else changes (R128). -/
def Obligations.FlagsFromTheResult : Prop :=
  ∀ (s : State) (w : Width) (r : Word), r.toNat < 2 ^ w.bits →
    s.setFlags w r = { s with zf := decide (r.toNat = 0), sf := decide (2 ^ (w.bits - 1) ≤ r.toNat) }

/-- CMP sets the flags exactly as SUB with the same operands; CMP changes the flags alone, and SUB the register file and the
flags alone (R150, R157). -/
def Obligations.CmpFlagsAreSubFlags : Prop :=
  ∀ s t u : State,
    ((∃ d rm reg, exec (.cmpRm d rm reg) s = .next t ∧ exec (.subRm d rm reg) s = .next u) ∨
     (∃ imm, exec (.cmpAcc imm) s = .next t ∧ exec (.subAcc imm) s = .next u) ∨
     (∃ rm imm, exec (.cmpRmi rm imm) s = .next t ∧ exec (.subRmi rm imm) s = .next u)) →
    t.zf = u.zf ∧ t.sf = u.sf ∧ t = { s with zf := t.zf, sf := t.sf } ∧ u = { s with regs := u.regs, zf := u.zf, sf := u.sf }

/-- The effective address is the sum of the bases and the displacement modulo 2^16; a direct address is itself (R127; D17). -/
def Obligations.EffectiveAddressIsTheSum : Prop :=
  ∀ (s : State) (b c : RegName) (k : Int) (v : Word),
    ((effectiveAddress s [b, c] (.d8 k)).toNat : Int) = ((s.readReg b).toNat + (s.readReg c).toNat + k) % 65536 ∧
    ((effectiveAddress s [b] (.d8 k)).toNat : Int) = ((s.readReg b).toNat + k) % 65536 ∧
    (effectiveAddress s [b, c] (.d16 v)).toNat = ((s.readReg b).toNat + (s.readReg c).toNat + v.toNat) % 65536 ∧
    (effectiveAddress s [b] (.d16 v)).toNat = ((s.readReg b).toNat + v.toNat) % 65536 ∧
    (effectiveAddress s [b, c] .none).toNat = ((s.readReg b).toNat + (s.readReg c).toNat) % 65536 ∧
    effectiveAddress s [b] .none = s.readReg b ∧
    effectiveAddress s [] (.d16 v) = v

/-! ## What each instruction does -/

/-- MOV between registers of one width, either direction, and of an immediate into a register, completes: the destination
holds the value, no flag and nothing else changes (R140, R141). -/
def Obligations.MovCompletes : Prop :=
  (∀ (s : State) (n reg : RegName), n.width = reg.width →
    exec (.movRm .toRm (.reg n) reg) s = .next (s.writeReg n (s.readReg reg)) ∧
    exec (.movRm .toReg (.reg n) reg) s = .next (s.writeReg reg (s.readReg n))) ∧
  (∀ (s : State) (reg : RegName) (v : Byte), reg.width = .byte →
    exec (.movRegi reg (.imm8 v)) s = .next (s.writeReg reg (BitVec.ofNat 16 v.toNat))) ∧
  (∀ (s : State) (reg : RegName) (v : Word), reg.width = .word →
    exec (.movRegi reg (.imm16 v)) s = .next (s.writeReg reg v))

/-- ADD on registers and immediates, all three families, completes: the destination holds the sum modulo 2^n, both flags come
from it, nothing else changes (R151, R152, R153). -/
def Obligations.AddCompletes : Prop :=
  (∀ (s : State) (n reg : RegName), n.width = reg.width →
    (let r := sumOf reg.width (s.readReg n) (s.readReg reg)
     exec (.addRm .toRm (.reg n) reg) s = .next (flagsFrom (s.writeReg n r) reg.width r)) ∧
    (let r := sumOf reg.width (s.readReg reg) (s.readReg n)
     exec (.addRm .toReg (.reg n) reg) s = .next (flagsFrom (s.writeReg reg r) reg.width r))) ∧
  (∀ (s : State) (v : Byte), let r := sumOf .byte (s.readReg .al) (BitVec.ofNat 16 v.toNat)
    exec (.addAcc (.imm8 v)) s = .next (flagsFrom (s.writeReg .al r) .byte r)) ∧
  (∀ (s : State) (v : Word), let r := sumOf .word (s.readReg .ax) v
    exec (.addAcc (.imm16 v)) s = .next (flagsFrom (s.writeReg .ax r) .word r)) ∧
  (∀ (s : State) (n : RegName) (b : Bool) (v : Byte), n.width = .byte →
    let r := sumOf .byte (s.readReg n) (BitVec.ofNat 16 v.toNat)
    exec (.addRmi (.reg n) (.byte b v)) s = .next (flagsFrom (s.writeReg n r) .byte r)) ∧
  (∀ (s : State) (n : RegName) (v : Word), n.width = .word → let r := sumOf .word (s.readReg n) v
    exec (.addRmi (.reg n) (.word v)) s = .next (flagsFrom (s.writeReg n r) .word r)) ∧
  (∀ (s : State) (n : RegName) (v : Byte), n.width = .word → let r := sumOf .word (s.readReg n) (s.swImmExt.extend v)
    exec (.addRmi (.reg n) (.short v)) s = .next (flagsFrom (s.writeReg n r) .word r))

/-- SUB on registers and immediates, all three families, completes: the destination holds the difference modulo 2^n, both flags
come from it, nothing else changes (R154, R155, R156). -/
def Obligations.SubCompletes : Prop :=
  (∀ (s : State) (n reg : RegName), n.width = reg.width →
    (let r := differenceOf reg.width (s.readReg n) (s.readReg reg)
     exec (.subRm .toRm (.reg n) reg) s = .next (flagsFrom (s.writeReg n r) reg.width r)) ∧
    (let r := differenceOf reg.width (s.readReg reg) (s.readReg n)
     exec (.subRm .toReg (.reg n) reg) s = .next (flagsFrom (s.writeReg reg r) reg.width r))) ∧
  (∀ (s : State) (v : Byte), let r := differenceOf .byte (s.readReg .al) (BitVec.ofNat 16 v.toNat)
    exec (.subAcc (.imm8 v)) s = .next (flagsFrom (s.writeReg .al r) .byte r)) ∧
  (∀ (s : State) (v : Word), let r := differenceOf .word (s.readReg .ax) v
    exec (.subAcc (.imm16 v)) s = .next (flagsFrom (s.writeReg .ax r) .word r)) ∧
  (∀ (s : State) (n : RegName) (b : Bool) (v : Byte), n.width = .byte →
    let r := differenceOf .byte (s.readReg n) (BitVec.ofNat 16 v.toNat)
    exec (.subRmi (.reg n) (.byte b v)) s = .next (flagsFrom (s.writeReg n r) .byte r)) ∧
  (∀ (s : State) (n : RegName) (v : Word), n.width = .word → let r := differenceOf .word (s.readReg n) v
    exec (.subRmi (.reg n) (.word v)) s = .next (flagsFrom (s.writeReg n r) .word r)) ∧
  (∀ (s : State) (n : RegName) (v : Byte), n.width = .word →
    let r := differenceOf .word (s.readReg n) (s.swImmExt.extend v)
    exec (.subRmi (.reg n) (.short v)) s = .next (flagsFrom (s.writeReg n r) .word r))

/-- CMP on registers and immediates, all three families, completes: both flags come from the difference modulo 2^n, no register
and nothing else changes (R157, R158, R159). -/
def Obligations.CmpCompletes : Prop :=
  (∀ (s : State) (n reg : RegName), n.width = reg.width →
    exec (.cmpRm .toRm (.reg n) reg) s =
      .next (flagsFrom s reg.width (differenceOf reg.width (s.readReg n) (s.readReg reg))) ∧
    exec (.cmpRm .toReg (.reg n) reg) s =
      .next (flagsFrom s reg.width (differenceOf reg.width (s.readReg reg) (s.readReg n)))) ∧
  (∀ (s : State) (v : Byte),
    exec (.cmpAcc (.imm8 v)) s = .next (flagsFrom s .byte (differenceOf .byte (s.readReg .al) (BitVec.ofNat 16 v.toNat)))) ∧
  (∀ (s : State) (v : Word),
    exec (.cmpAcc (.imm16 v)) s = .next (flagsFrom s .word (differenceOf .word (s.readReg .ax) v))) ∧
  (∀ (s : State) (n : RegName) (b : Bool) (v : Byte), n.width = .byte →
    exec (.cmpRmi (.reg n) (.byte b v)) s =
      .next (flagsFrom s .byte (differenceOf .byte (s.readReg n) (BitVec.ofNat 16 v.toNat)))) ∧
  (∀ (s : State) (n : RegName) (v : Word), n.width = .word →
    exec (.cmpRmi (.reg n) (.word v)) s = .next (flagsFrom s .word (differenceOf .word (s.readReg n) v))) ∧
  (∀ (s : State) (n : RegName) (v : Byte), n.width = .word →
    exec (.cmpRmi (.reg n) (.short v)) s =
      .next (flagsFrom s .word (differenceOf .word (s.readReg n) (s.swImmExt.extend v))))

/-- JNE completes for every displacement: `ip` moves by it modulo 2^16 when ZF is clear and stays when ZF is set; nothing else
changes (R170, R178). -/
def Obligations.JneCompletes : Prop :=
  ∀ (s : State) (k : Int), -128 ≤ k → k ≤ 127 →
    ∃ t, exec (.jne k) s = .next { s with ip := t } ∧
      (s.zf = true → t = s.ip) ∧ (s.zf = false → (t.toNat : Int) = ((s.ip.toNat : Int) + k) % 65536)

/-- The 19 other branch and loop forms stop with Unsupported, recording the instruction, with nothing else changed (R172;
that the boundary is kept is D11). -/
def Obligations.OtherBranchesAreUnsupported : Prop :=
  ∀ (k : BranchKind) (disp : Int) (s : State), k ≠ .jne → -128 ≤ disp → disp ≤ 127 →
    exec (k.instr disp) s =
      .fault (.unsupported (.branch k disp 2) { s with status := .unsupported (.branch k disp 2) })

/-- An instruction with a memory operand stops with Unsupported, recording the instruction, before any register or flag is
written (R124; D15). -/
def Obligations.MemoryOperandsAreUnsupported : Prop :=
  ∀ (s : State) (bases : List RegName) (disp : Disp), memWellFormed bases disp = true →
    (∀ (d : Dir) (reg : RegName),
      ∀ i ∈ [Instr.movRm d (.mem bases disp) reg, .addRm d (.mem bases disp) reg, .subRm d (.mem bases disp) reg,
        .cmpRm d (.mem bases disp) reg],
      exec i s = .fault (.unsupported (i.decoded s.swImmExt) { s with status := .unsupported (i.decoded s.swImmExt) })) ∧
    (∀ imm : RmiImm,
      ∀ i ∈ [Instr.addRmi (.mem bases disp) imm, .subRmi (.mem bases disp) imm, .cmpRmi (.mem bases disp) imm],
      exec i s = .fault (.unsupported (i.decoded s.swImmExt) { s with status := .unsupported (i.decoded s.swImmExt) }))

/-- Every instruction has exactly one outcome: refused when no bytes decode to it, a next state when it has an execution effect,
Unsupported otherwise (R124, R130, R131, R172). -/
def Obligations.ExecutionOutcomeOfEveryInstruction : Prop :=
  ∀ (i : Instr) (s : State),
    (i.wellFormed = false → exec i s = .refused (.illFormed i)) ∧
    (i.wellFormed = true → isExecuted i = true → ∃ t, exec i s = .next t) ∧
    (i.wellFormed = true → isExecuted i = false →
      exec i s = .fault (.unsupported (i.decoded s.swImmExt) { s with status := .unsupported (i.decoded s.swImmExt) }))

/-- The frame of every instruction: a name that shares no bit with the destination reads as before, nothing at all is written in
the register file by CMP and JNE, the status, `last`, the cursor and every image byte stay, and only JNE moves `ip`
(R22, R24, R157, R171). -/
def Obligations.ExecutionFrame : Prop :=
  ∀ (i : Instr) (s t : State), exec i s = .next t →
    (∀ m : RegName, (∀ n, writtenRegister i = some n → overlaps n m = false) → t.readReg m = s.readReg m) ∧
    (writtenRegister i = none → t.regs = s.regs) ∧
    ((∀ k, i ≠ .jne k) → t.ip = s.ip) ∧
    t.status = s.status ∧ t.last = s.last ∧ t.cursor = s.cursor ∧ t.swImmExt = s.swImmExt ∧
    ∀ a, t.fetch a = s.fetch a

/-- The writers of the flags: ADD, SUB and CMP write both from their result; MOV and JNE leave both; and a step changes a flag
only where it runs an ADD, a SUB or a CMP (R31). -/
def Obligations.FlagWriters : Prop :=
  (∀ (i : Instr) (s t : State), exec i s = .next t →
    match flagResult s i with
    | none => t.zf = s.zf ∧ t.sf = s.sf
    | some (w, r) => (t.zf = true ↔ r.toNat = 0) ∧ (t.sf = true ↔ 2 ^ (w.bits - 1) ≤ r.toNat)) ∧
  (∀ s t : State, stateAfter (step s) = some t → (t.zf = s.zf ∧ t.sf = s.sf) ∨
    ∃ i c, decode s.fetch s.ip = .ok i c ∧ step s = .next t ∧ (flagResult s i).isSome = true)

/-- No branch or loop form writes a register or a flag, whether it completes or stops; CX is never decremented (R171). -/
def Obligations.BranchesWriteNoRegisterOrFlag : Prop :=
  ∀ (k : BranchKind) (disp : Int) (s t : State), stateAfter (exec (k.instr disp) s) = some t →
    t.regs = s.regs ∧ t.zf = s.zf ∧ t.sf = s.sf

/-- The same register as both operands: SUB gives 0, CMP changes no register, both set ZF and clear SF; ADD doubles modulo 2^n
(R161). -/
def Obligations.SameRegisterTwice : Prop :=
  ∀ (s : State) (n : RegName) (d : Dir),
    exec (.subRm d (.reg n) n) s = .next { s.writeReg n 0x0000#16 with zf := true, sf := false } ∧
    exec (.cmpRm d (.reg n) n) s = .next { s with zf := true, sf := false } ∧
    ∃ t, exec (.addRm d (.reg n) n) s = .next t ∧
      (t.readReg n).toNat = 2 * (s.readReg n).toNat % 2 ^ n.width.bits

/-- SW_IMM_EXT bears on the w = 1, s = 1 immediates of 0x80 and more alone: every other instruction that completes completes
alike under either value (R87; D9). -/
def Obligations.ExtensionBearsOnShortImmediatesOnly : Prop :=
  ∀ (i : Instr) (s t : State) (e : SwImmExt), dependsOnExtension i = false → exec i s = .next t →
    exec i { s with swImmExt := e } = .next { t with swImmExt := e }

/-- No effect reads `ip` but a branch's: an instruction other than a branch that completes completes alike wherever it stands
(R129). -/
def Obligations.OnlyBranchesReadIp : Prop :=
  ∀ (i : Instr) (s t : State) (a : Word), (∀ k, i ≠ .jne k) → exec i s = .next t →
    exec i { s with ip := a } = .next { t with ip := a }

/-! ## From the bits of the image to the effect -/

/-- The register forms of family RM from their bits: `oooooodw 11rrrmmm` at `ip` runs MOV, ADD, SUB or CMP between the two named
registers, the one d selects as the destination (R74, R76, R82, R140, R151, R154, R157). -/
def Obligations.RegisterFormsFromTheirBits : Prop :=
  ∀ (s : State) (d w : Bool) (reg rm : BitVec 3), s.status = .running →
    let wd := Width.ofBit w
    let dst := if d then regName wd reg else regName wd rm
    let src := if d then regName wd rm else regName wd reg
    let dir := Dir.ofBit d
    let sum := sumOf wd (s.readReg dst) (s.readReg src)
    let diff := differenceOf wd (s.readReg dst) (s.readReg src)
    (bytesAtIp s [leadingByte 0b100010#6 d w, addressingByte 0b11#2 reg rm] →
      step s = .next ((afterDecode s (.movRm dir (.reg (regName wd rm)) (regName wd reg)) 2).writeReg dst (s.readReg src))) ∧
    (bytesAtIp s [leadingByte 0b000000#6 d w, addressingByte 0b11#2 reg rm] →
      step s = .next (flagsFrom
        ((afterDecode s (.addRm dir (.reg (regName wd rm)) (regName wd reg)) 2).writeReg dst sum) wd sum)) ∧
    (bytesAtIp s [leadingByte 0b001010#6 d w, addressingByte 0b11#2 reg rm] →
      step s = .next (flagsFrom
        ((afterDecode s (.subRm dir (.reg (regName wd rm)) (regName wd reg)) 2).writeReg dst diff) wd diff)) ∧
    (bytesAtIp s [leadingByte 0b001110#6 d w, addressingByte 0b11#2 reg rm] →
      step s = .next (flagsFrom
        (afterDecode s (.cmpRm dir (.reg (regName wd rm)) (regName wd reg)) 2) wd diff))

/-- JNE from its bits: `75 dd` at `ip` goes to `ip` + 2 when ZF is set, and to `ip` + 2 + dd modulo 2^16 when it is clear: the
advance comes before the effect (R129, R170, R178, R235). -/
def Obligations.JneFromItsBits : Prop :=
  ∀ (s : State) (b : Byte), s.status = .running → bytesAtIp s [0x75#8, b] →
    ∃ t, step s = .next { afterDecode s (.jne b.toInt) 2 with ip := t } ∧
      (s.zf = true → (t.toNat : Int) = ((s.ip.toNat : Int) + 2) % 65536) ∧
      (s.zf = false → (t.toNat : Int) = ((s.ip.toNat : Int) + 2 + b.toInt) % 65536)

/-! ## The listing -/

/-- The listing of the loop of 95_test_vectors.md X1, and the decode error that stops X3 (R102 to R107; D20, log 15). -/
def Obligations.ListingOfTheExamples : Prop :=
  disassemble (Memory.ofBytes [0xB9#8, 0x03#8, 0x00#8, 0x83#8, 0xE9#8, 0x01#8, 0x75#8, 0xFB#8]) .zero =
    .ok ["bits 16", "mov cx, 3", "label0:", "sub cx, 1", "jne label0"] ∧
  disassemble (Memory.ofBytes [0xB0#8, 0x01#8, 0x90#8, 0xB0#8, 0x02#8]) .zero =
    .error (.unknownInstruction 0x90#8 0x0002#16)
end

