-- ==== Sys2Proof/Laws/Decode.lean ====
section
/-! SUPPORT. The readers of the decoder, said once (30_encoding.md rules R70, R92). -/

namespace Sys2Proof

@[simp] theorem Read.andThen_ok {α β : Type} (a : α) (c : Cursor) (k : α → Cursor → Read β) :
    (Read.ok a c).andThen k = k a c := rfl

@[simp] theorem Read.andThen_err {α β : Type} (e : DecodeError) (c : Cursor) (k : α → Cursor → Read β) :
    (Read.err e c : Read α).andThen k = .err e c := rfl

@[simp] theorem Cursor.advance_pos (c : Cursor) : c.advance.pos = c.pos + 1 := rfl
@[simp] theorem Cursor.advance_count (c : Cursor) : c.advance.count = c.count + 1 := rfl
@[simp] theorem Cursor.start_pos (a : Word) : (Cursor.start a).pos = a.toNat := rfl
@[simp] theorem Cursor.start_count (a : Word) : (Cursor.start a).count = 0 := rfl

/-- A byte stands at the cursor: it is consumed and counted. -/
theorem next_of_some {fetch : Nat → Option Byte} {c : Cursor} {b : Byte} (h : fetch c.pos = some b) :
    next fetch c = .ok b c.advance := by
  simp [next, peek, h]

/-- No byte stands at the cursor: EndOfInstructionStream, with nothing consumed. -/
theorem next_of_none {fetch : Nat → Option Byte} {c : Cursor} (h : fetch c.pos = none) :
    next fetch c = .err .endOfInstructionStream c := by
  simp [next, peek, h]

/-- A value read on from another value: the first was read, then the second. -/
theorem Read.andThen_eq_ok {α β : Type} {r : Read α} {k : α → Cursor → Read β} {b : β} {c : Cursor} :
    r.andThen k = .ok b c ↔ ∃ a c', r = .ok a c' ∧ k a c' = .ok b c := by
  cases r <;> simp

/-- An error of two readings is the first one's, or the second one's after the first was read. -/
theorem Read.andThen_eq_err {α β : Type} {r : Read α} {k : α → Cursor → Read β} {e : DecodeError} {c : Cursor} :
    r.andThen k = .err e c ↔ r = .err e c ∨ ∃ a c', r = .ok a c' ∧ k a c' = .err e c := by
  cases r <;> simp

/-- A byte is read exactly where one stands. -/
theorem next_eq_ok {fetch : Nat → Option Byte} {c c' : Cursor} {b : Byte} :
    next fetch c = .ok b c' ↔ fetch c.pos = some b ∧ c' = c.advance := by
  cases h : fetch c.pos <;> simp [next, peek, h, eq_comm]

/-- The only error of `next` is EndOfInstructionStream, where no byte stands. -/
theorem next_eq_err {fetch : Nat → Option Byte} {c c' : Cursor} {e : DecodeError} :
    next fetch c = .err e c' ↔ fetch c.pos = none ∧ e = .endOfInstructionStream ∧ c' = c := by
  cases h : fetch c.pos <;> simp [next, peek, h, eq_comm]

/-- The name a code stands for has that code (30_encoding.md R76). -/
@[simp] theorem code_regName (w : Width) (c : BitVec 3) : (regName w c).code = c := by
  revert c; cases w <;> decide

/-- The name a code stands for has the width it is read at (R76). -/
@[simp] theorem width_regName (w : Width) (c : BitVec 3) : (regName w c).width = w := by
  revert c; cases w <;> decide

/-- The code of a name stands for it at its own width (R76). -/
@[simp] theorem regName_code (n : RegName) : regName n.width n.code = n := by
  cases n <;> rfl

/-- The fields of an addressing byte are the ones it was made of (30_encoding.md R75). -/
@[simp] theorem modField_addressingByte (md : BitVec 2) (reg rm : BitVec 3) : modField (addressingByte md reg rm) = md := by
  revert md reg rm; decide

@[simp] theorem regField_addressingByte (md : BitVec 2) (reg rm : BitVec 3) : regField (addressingByte md reg rm) = reg := by
  revert md reg rm; decide

@[simp] theorem rmField_addressingByte (md : BitVec 2) (reg rm : BitVec 3) : rmField (addressingByte md reg rm) = rm := by
  revert md reg rm; decide

/-- The value of two bytes (00_scope.md R9). -/
theorem toNat_cat (hi lo : Byte) : (cat hi lo).toNat = hi.toNat * 256 + lo.toNat := by
  have h := Nat.shiftLeft_add_eq_or_of_lt lo.isLt hi.toNat
  simp only [cat, BitVec.toNat_append]
  rw [← h, Nat.shiftLeft_eq]

theorem toNat_lowByte (v : Word) : (lowByte v).toNat = v.toNat % 256 := by
  simp [lowByte]

theorem toNat_highByte (v : Word) : (highByte v).toNat = v.toNat / 256 := by
  have := v.isLt
  simp [highByte, Nat.shiftRight_eq_div_pow]
  omega

/-- The bytes of a word, put together again (20_memory.md R54). -/
@[simp] theorem cat_bytes (v : Word) : cat (highByte v) (lowByte v) = v := by
  apply BitVec.eq_of_toNat_eq
  rw [toNat_cat, toNat_lowByte, toNat_highByte]
  omega

@[simp] theorem highByte_cat (hi lo : Byte) : highByte (cat hi lo) = hi := by
  apply BitVec.eq_of_toNat_eq
  rw [toNat_highByte, toNat_cat]
  omega

@[simp] theorem lowByte_cat (hi lo : Byte) : lowByte (cat hi lo) = lo := by
  apply BitVec.eq_of_toNat_eq
  rw [toNat_lowByte, toNat_cat]
  omega

/-- A signed 8-bit number survives its byte (R80, R84). -/
theorem signed8_ofSigned8 {k : Int} (h : isSigned8 k = true) : signed8 (ofSigned8 k) = k := by
  simp only [isSigned8, Bool.and_eq_true, decide_eq_true_eq] at h
  simp only [signed8, ofSigned8, BitVec.toInt_ofInt]
  rw [Int.bmod_def]; omega

/-- A byte's signed value is a signed 8-bit number. -/
theorem isSigned8_signed8 (b : Byte) : isSigned8 (signed8 b) = true := by
  revert b; decide

end Sys2Proof
end

