-- ==== Sys2Proof/Laws/Memory.lean ====
section
/-! SUPPORT. The image: a byte written is the byte fetched, other bytes stay, and every operation keeps the canonical form
(20_memory.md rules R50, R51). -/

namespace Sys2Proof.Machine

/-- A rising list is a rising tail below which the head stands. -/
theorem cellsRise_cons (x : Host.Cell) (cs : List Host.Cell) :
    cellsRise (x :: cs) = true ↔ (∀ c ∈ cs, x.1 < c.1) ∧ cellsRise cs = true := by
  induction cs generalizing x with
  | nil => simp [cellsRise]
  | cons y ys ih =>
    have hy := ih y
    constructor
    · intro h
      simp only [cellsRise, Bool.and_eq_true, decide_eq_true_eq] at h
      refine ⟨fun c hc => ?_, h.2⟩
      rcases List.mem_cons.1 hc with rfl | hc
      · exact h.1
      · exact lt_trans h.1 ((hy.1 h.2).1 c hc)
    · rintro ⟨hlt, h⟩
      simp only [cellsRise, Bool.and_eq_true, decide_eq_true_eq]
      exact ⟨hlt y (List.mem_cons_self ..), h⟩

/-- No listed address: the byte is 0x00. -/
theorem cellAt_of_not_mem {a : Nat} {cs : List Host.Cell} (h : ∀ c ∈ cs, c.1 ≠ a) : cellAt a cs = 0#8 := by
  induction cs with
  | nil => rfl
  | cons c cs ih =>
    have hc : c.1 ≠ a := h c (List.mem_cons_self ..)
    simp only [cellAt, hc, if_false]
    exact ih fun d hd => h d (List.mem_cons_of_mem _ hd)

/-- Below every listed address the byte is 0x00. -/
theorem cellAt_of_lt {a : Nat} {cs : List Host.Cell} (h : ∀ c ∈ cs, a < c.1) : cellAt a cs = 0#8 :=
  cellAt_of_not_mem fun c hc => (ne_of_gt (h c hc))

/-- What a changed cell list holds. -/
theorem cellAt_setCell {cs : List Host.Cell} (h : cellsRise cs = true) (a x : Nat) (b : Byte) :
    cellAt x (setCell a b cs) = if x = a then b else cellAt x cs := by
  induction cs with
  | nil =>
    by_cases hx : x = a
    · subst hx; by_cases hb : b = 0#8 <;> simp [setCell, cellAt, hb]
    · by_cases hb : b = 0#8 <;> simp [setCell, cellAt, hb, hx, Ne.symm hx]
  | cons c cs ih =>
    obtain ⟨y, v⟩ := c
    obtain ⟨hlt, hr⟩ := (cellsRise_cons _ _).1 h
    have ih := ih hr
    simp only at hlt
    by_cases h1 : a < y
    · have hz : x = a → cellAt x ((y, v) :: cs) = 0#8 := fun hx => cellAt_of_lt (by
        intro c hc
        rcases List.mem_cons.1 hc with rfl | hc
        · simp; omega
        · have := hlt c hc; omega)
      by_cases hb : b = 0#8
      · by_cases hx : x = a
        · simp [setCell, h1, hb, hx, hx ▸ hz hx]
        · simp [setCell, h1, hb, hx]
      · by_cases hx : x = a
        · simp [setCell, h1, hb, hx, cellAt]
        · simp [setCell, h1, hb, hx, cellAt, Ne.symm hx]
    · by_cases h2 : a = y
      · subst h2
        have hz : cellAt a cs = 0#8 := cellAt_of_lt hlt
        by_cases hb : b = 0#8
        · by_cases hx : x = a
          · simp [setCell, hb, hx, hz]
          · simp [setCell, hb, hx, cellAt, Ne.symm hx]
        · by_cases hx : x = a
          · simp [setCell, hb, hx, cellAt]
          · simp [setCell, hb, hx, cellAt, Ne.symm hx]
      · by_cases hx : y = x
        · subst hx
          simp [setCell, h1, h2, cellAt, Ne.symm h2]
        · simp [setCell, h1, h2, cellAt, hx, ih]

/-- A cell of a changed list is an old cell or the new one, and the new one is not 0x00. -/
theorem mem_setCell {cs : List Host.Cell} {a : Nat} {b : Byte} {c : Host.Cell} (h : c ∈ setCell a b cs) :
    c ∈ cs ∨ (c = (a, b) ∧ b ≠ 0#8) := by
  induction cs with
  | nil => by_cases hb : b = 0#8 <;> simp_all [setCell]
  | cons d cs ih =>
    obtain ⟨y, v⟩ := d
    by_cases h1 : a < y
    · by_cases hb : b = 0#8
      · simp only [setCell, h1, hb, if_true] at h
        exact .inl h
      · simp only [setCell, h1, hb, if_true, if_false] at h
        rcases List.mem_cons.1 h with rfl | h
        · exact .inr ⟨rfl, hb⟩
        · exact .inl h
    · by_cases h2 : a = y
      · by_cases hb : b = 0#8
        · simp only [setCell, h2, hb, lt_irrefl, if_true, if_false] at h
          exact .inl (List.mem_cons_of_mem _ h)
        · simp only [setCell, h2, hb, lt_irrefl, if_true, if_false] at h
          rcases List.mem_cons.1 h with rfl | h
          · exact .inr ⟨by rw [h2], hb⟩
          · exact .inl (List.mem_cons_of_mem _ h)
      · simp only [setCell, h1, h2, if_false] at h
        rcases List.mem_cons.1 h with rfl | h
        · exact .inl (List.mem_cons_self ..)
        · rcases ih h with h | h
          · exact .inl (List.mem_cons_of_mem _ h)
          · exact .inr h

/-- A write keeps the addresses rising. -/
theorem cellsRise_setCell {cs : List Host.Cell} (h : cellsRise cs = true) (a : Nat) (b : Byte) :
    cellsRise (setCell a b cs) = true := by
  induction cs with
  | nil => by_cases hb : b = 0#8 <;> simp [setCell, hb, cellsRise]
  | cons c cs ih =>
    obtain ⟨y, v⟩ := c
    obtain ⟨hlt, hr⟩ := (cellsRise_cons _ _).1 h
    simp only [setCell]
    split
    · split
      · exact h
      · refine (cellsRise_cons _ _).2 ⟨fun c hc => ?_, h⟩
        rcases List.mem_cons.1 hc with rfl | hc
        · assumption
        · exact lt_trans ‹a < y› (hlt c hc)
    · split
      · split
        · exact hr
        · subst a; exact (cellsRise_cons _ _).2 ⟨hlt, hr⟩
      · refine (cellsRise_cons _ _).2 ⟨fun c hc => ?_, ih hr⟩
        rcases mem_setCell hc with hc | ⟨rfl, -⟩
        · exact hlt c hc
        · simp only; omega

/-- The canonical form in four parts. -/
theorem Memory.wf_iff (m : Memory) :
    m.wf = true ↔ m.len ≤ Config.maxImageLen ∧ cellsRise m.cells = true ∧ ∀ c ∈ m.cells, c.1 < m.len ∧ c.2 ≠ 0#8 := by
  simp [Memory.wf, and_assoc]

theorem Memory.empty_wf : Memory.empty.wf = true := by decide

/-- A write of one byte keeps the canonical form. -/
theorem Memory.put_wf {m : Memory} (h : m.wf = true) (a : Nat) (b : Byte) : (m.put a b).wf = true := by
  obtain ⟨hl, hr, hc⟩ := (Memory.wf_iff m).1 h
  unfold Memory.put
  split
  · refine (Memory.wf_iff _).2 ⟨hl, cellsRise_setCell hr a b, fun c hcm => ?_⟩
    rcases mem_setCell hcm with hcm | ⟨rfl, hb⟩
    · exact hc c hcm
    · exact ⟨by assumption, hb⟩
  · exact h

@[simp] theorem Memory.put_len (m : Memory) (a : Nat) (b : Byte) : (m.put a b).len = m.len := by
  unfold Memory.put; split <;> rfl

/-- Writes of consecutive bytes keep the canonical form. -/
theorem Memory.putBytes_wf {m : Memory} (h : m.wf = true) (a : Nat) (bs : List Byte) : (m.putBytes a bs).wf = true := by
  induction bs generalizing m a with
  | nil => exact h
  | cons b bs ih => exact ih (Memory.put_wf h a b) (a + 1)

@[simp] theorem Memory.putBytes_len (m : Memory) (a : Nat) (bs : List Byte) : (m.putBytes a bs).len = m.len := by
  induction bs generalizing m a with
  | nil => rfl
  | cons b bs ih => simp [Memory.putBytes, ih]

/-- A longer image keeps the canonical form. -/
theorem Memory.grow_wf {m : Memory} (h : m.wf = true) (n : Nat) : (m.grow n).wf = true := by
  obtain ⟨hl, hr, hc⟩ := (Memory.wf_iff m).1 h
  refine (Memory.wf_iff _).2 ⟨?_, hr, fun c hcm => ⟨lt_of_lt_of_le (hc c hcm).1 (le_max_left ..), (hc c hcm).2⟩⟩
  simp only [Memory.grow]; omega

theorem Memory.ofBytes_wf (bs : List Byte) : (Memory.ofBytes bs).wf = true :=
  Memory.putBytes_wf (Memory.grow_wf Memory.empty_wf _) 0 bs

/-- Placing a word for the next fetch keeps the canonical form. -/
theorem State.withFetchWord_wf {s : State} (h : s.image.wf = true) (nbits w : Nat) :
    (s.withFetchWord nbits w).image.wf = true :=
  Memory.putBytes_wf (Memory.grow_wf h _) _ _

/-- A fetch after a write: the byte written, or the byte that was there. -/
theorem Memory.fetch_put {m : Memory} (h : m.wf = true) {a : Nat} (ha : a < m.len) (b : Byte) (x : Nat) :
    (m.put a b).fetch x = if x = a then some b else m.fetch x := by
  obtain ⟨-, hr, -⟩ := (Memory.wf_iff m).1 h
  simp only [Memory.put, ha, if_true, Memory.fetch, cellAt_setCell hr]
  by_cases hx : x = a
  · simp [hx, ha]
  · simp [hx]

/-- A fetch answers a byte below L and none at or beyond it (20_memory.md R51). -/
theorem Memory.fetch_eq_none {m : Memory} {a : Nat} : m.fetch a = none ↔ m.len ≤ a := by
  simp [Memory.fetch]

end Sys2Proof.Machine
end

