-- ==== Sys2Proof/Laws/State.lean ====
section
/-! SUPPORT. What each update of the state does to each field, and the register file's slots. -/

namespace Sys2Proof.Machine

@[simp] theorem State.setIp_regs (s : State) (t : Word) : (s.setIp t).regs = s.regs := rfl
@[simp] theorem State.setIp_zf (s : State) (t : Word) : (s.setIp t).zf = s.zf := rfl
@[simp] theorem State.setIp_sf (s : State) (t : Word) : (s.setIp t).sf = s.sf := rfl
@[simp] theorem State.setIp_ip (s : State) (t : Word) : (s.setIp t).ip = t := rfl
@[simp] theorem State.setIp_status (s : State) (t : Word) : (s.setIp t).status = s.status := rfl
@[simp] theorem State.setIp_cursor (s : State) (t : Word) : (s.setIp t).cursor = s.cursor := rfl
@[simp] theorem State.setIp_last (s : State) (t : Word) : (s.setIp t).last = s.last := rfl
@[simp] theorem State.setIp_image (s : State) (t : Word) : (s.setIp t).image = s.image := rfl
@[simp] theorem State.setIp_swImmExt (s : State) (t : Word) : (s.setIp t).swImmExt = s.swImmExt := rfl

@[simp] theorem State.writeReg_regs (s : State) (n : RegName) (v : Word) : (s.writeReg n v).regs = s.regs.set (slotOf n) ((partOf n).write (s.regs.get (slotOf n)) v) := rfl
@[simp] theorem State.writeReg_zf (s : State) (n : RegName) (v : Word) : (s.writeReg n v).zf = s.zf := rfl
@[simp] theorem State.writeReg_sf (s : State) (n : RegName) (v : Word) : (s.writeReg n v).sf = s.sf := rfl
@[simp] theorem State.writeReg_ip (s : State) (n : RegName) (v : Word) : (s.writeReg n v).ip = s.ip := rfl
@[simp] theorem State.writeReg_status (s : State) (n : RegName) (v : Word) : (s.writeReg n v).status = s.status := rfl
@[simp] theorem State.writeReg_cursor (s : State) (n : RegName) (v : Word) : (s.writeReg n v).cursor = s.cursor := rfl
@[simp] theorem State.writeReg_last (s : State) (n : RegName) (v : Word) : (s.writeReg n v).last = s.last := rfl
@[simp] theorem State.writeReg_image (s : State) (n : RegName) (v : Word) : (s.writeReg n v).image = s.image := rfl
@[simp] theorem State.writeReg_swImmExt (s : State) (n : RegName) (v : Word) : (s.writeReg n v).swImmExt = s.swImmExt := rfl

@[simp] theorem State.setFlags_regs (s : State) (w : Width) (r : Word) : (s.setFlags w r).regs = s.regs := rfl
@[simp] theorem State.setFlags_zf (s : State) (w : Width) (r : Word) : (s.setFlags w r).zf = zeroOf r := rfl
@[simp] theorem State.setFlags_sf (s : State) (w : Width) (r : Word) : (s.setFlags w r).sf = signOf w r := rfl
@[simp] theorem State.setFlags_ip (s : State) (w : Width) (r : Word) : (s.setFlags w r).ip = s.ip := rfl
@[simp] theorem State.setFlags_status (s : State) (w : Width) (r : Word) : (s.setFlags w r).status = s.status := rfl
@[simp] theorem State.setFlags_cursor (s : State) (w : Width) (r : Word) : (s.setFlags w r).cursor = s.cursor := rfl
@[simp] theorem State.setFlags_last (s : State) (w : Width) (r : Word) : (s.setFlags w r).last = s.last := rfl
@[simp] theorem State.setFlags_image (s : State) (w : Width) (r : Word) : (s.setFlags w r).image = s.image := rfl
@[simp] theorem State.setFlags_swImmExt (s : State) (w : Width) (r : Word) : (s.setFlags w r).swImmExt = s.swImmExt := rfl

@[simp] theorem State.halt_regs (s : State) : s.halt.regs = s.regs := rfl
@[simp] theorem State.halt_zf (s : State) : s.halt.zf = s.zf := rfl
@[simp] theorem State.halt_sf (s : State) : s.halt.sf = s.sf := rfl
@[simp] theorem State.halt_ip (s : State) : s.halt.ip = s.ip := rfl
@[simp] theorem State.halt_status (s : State) : s.halt.status = .halted := rfl
@[simp] theorem State.halt_cursor (s : State) : s.halt.cursor = s.cursor := rfl
@[simp] theorem State.halt_last (s : State) : s.halt.last = s.last := rfl
@[simp] theorem State.halt_image (s : State) : s.halt.image = s.image := rfl
@[simp] theorem State.halt_swImmExt (s : State) : s.halt.swImmExt = s.swImmExt := rfl

@[simp] theorem State.recordDecode_regs (s : State) (r : Read Instr) : (s.recordDecode r).regs = s.regs := rfl
@[simp] theorem State.recordDecode_zf (s : State) (r : Read Instr) : (s.recordDecode r).zf = s.zf := rfl
@[simp] theorem State.recordDecode_sf (s : State) (r : Read Instr) : (s.recordDecode r).sf = s.sf := rfl
@[simp] theorem State.recordDecode_ip (s : State) (r : Read Instr) : (s.recordDecode r).ip = s.ip := rfl
@[simp] theorem State.recordDecode_status (s : State) (r : Read Instr) : (s.recordDecode r).status = s.status := rfl
@[simp] theorem State.recordDecode_cursor (s : State) (r : Read Instr) : (s.recordDecode r).cursor = r.cursor := rfl
@[simp] theorem State.recordDecode_last (s : State) (r : Read Instr) : (s.recordDecode r).last = some (r.result s.swImmExt) := rfl
@[simp] theorem State.recordDecode_image (s : State) (r : Read Instr) : (s.recordDecode r).image = s.image := rfl
@[simp] theorem State.recordDecode_swImmExt (s : State) (r : Read Instr) : (s.recordDecode r).swImmExt = s.swImmExt := rfl

@[simp] theorem State.advance_regs (s : State) (n : Nat) : (s.advance n).regs = s.regs := rfl
@[simp] theorem State.advance_zf (s : State) (n : Nat) : (s.advance n).zf = s.zf := rfl
@[simp] theorem State.advance_sf (s : State) (n : Nat) : (s.advance n).sf = s.sf := rfl
@[simp] theorem State.advance_ip (s : State) (n : Nat) : (s.advance n).ip = s.ip + BitVec.ofNat 16 n := rfl
@[simp] theorem State.advance_status (s : State) (n : Nat) : (s.advance n).status = s.status := rfl
@[simp] theorem State.advance_cursor (s : State) (n : Nat) : (s.advance n).cursor = s.cursor := rfl
@[simp] theorem State.advance_last (s : State) (n : Nat) : (s.advance n).last = s.last := rfl
@[simp] theorem State.advance_image (s : State) (n : Nat) : (s.advance n).image = s.image := rfl
@[simp] theorem State.advance_swImmExt (s : State) (n : Nat) : (s.advance n).swImmExt = s.swImmExt := rfl

@[simp] theorem State.launch_regs (r : Regs) (z f : Bool) (m : Memory) (e : SwImmExt) : (State.launch r z f m e).regs = r := rfl
@[simp] theorem State.launch_zf (r : Regs) (z f : Bool) (m : Memory) (e : SwImmExt) : (State.launch r z f m e).zf = z := rfl
@[simp] theorem State.launch_sf (r : Regs) (z f : Bool) (m : Memory) (e : SwImmExt) : (State.launch r z f m e).sf = f := rfl
@[simp] theorem State.launch_ip (r : Regs) (z f : Bool) (m : Memory) (e : SwImmExt) : (State.launch r z f m e).ip = 0 := rfl
@[simp] theorem State.launch_status (r : Regs) (z f : Bool) (m : Memory) (e : SwImmExt) : (State.launch r z f m e).status = .running := rfl
@[simp] theorem State.launch_cursor (r : Regs) (z f : Bool) (m : Memory) (e : SwImmExt) : (State.launch r z f m e).cursor = { pos := 0, count := 0 } := rfl
@[simp] theorem State.launch_last (r : Regs) (z f : Bool) (m : Memory) (e : SwImmExt) : (State.launch r z f m e).last = none := rfl
@[simp] theorem State.launch_image (r : Regs) (z f : Bool) (m : Memory) (e : SwImmExt) : (State.launch r z f m e).image = m := rfl
@[simp] theorem State.launch_swImmExt (r : Regs) (z f : Bool) (m : Memory) (e : SwImmExt) : (State.launch r z f m e).swImmExt = e := rfl

/-- A write to an operand changes the register file alone. -/
theorem State.writeOperand_eq (s : State) (op : Operand) (v : Word) :
    s.writeOperand op v = { s with regs := (s.writeOperand op v).regs } := by
  cases op <;> rfl

@[simp] theorem State.writeOperand_zf (s : State) (op : Operand) (v : Word) : (s.writeOperand op v).zf = s.zf := by
  cases op <;> rfl
@[simp] theorem State.writeOperand_sf (s : State) (op : Operand) (v : Word) : (s.writeOperand op v).sf = s.sf := by
  cases op <;> rfl
@[simp] theorem State.writeOperand_ip (s : State) (op : Operand) (v : Word) : (s.writeOperand op v).ip = s.ip := by
  cases op <;> rfl
@[simp] theorem State.writeOperand_status (s : State) (op : Operand) (v : Word) : (s.writeOperand op v).status = s.status := by
  cases op <;> rfl
@[simp] theorem State.writeOperand_cursor (s : State) (op : Operand) (v : Word) : (s.writeOperand op v).cursor = s.cursor := by
  cases op <;> rfl
@[simp] theorem State.writeOperand_last (s : State) (op : Operand) (v : Word) : (s.writeOperand op v).last = s.last := by
  cases op <;> rfl
@[simp] theorem State.writeOperand_image (s : State) (op : Operand) (v : Word) : (s.writeOperand op v).image = s.image := by
  cases op <;> rfl
@[simp] theorem State.writeOperand_swImmExt (s : State) (op : Operand) (v : Word) : (s.writeOperand op v).swImmExt = s.swImmExt := by
  cases op <;> rfl

@[simp] theorem State.writeOperand_reg (s : State) (n : RegName) (v : Word) : s.writeOperand (.reg n) v = s.writeReg n v := rfl

@[simp] theorem State.fetch_setIp (s : State) (t : Word) : (s.setIp t).fetch = s.fetch := rfl
@[simp] theorem State.fetch_writeReg (s : State) (n : RegName) (v : Word) : (s.writeReg n v).fetch = s.fetch := rfl
@[simp] theorem State.fetch_setFlags (s : State) (w : Width) (r : Word) : (s.setFlags w r).fetch = s.fetch := rfl

/-- The slot that was set holds the value. -/
@[simp] theorem Regs.get_set_same (r : Regs) (t : Slot) (v : Word) : (r.set t v).get t = v := by
  cases t <;> rfl

/-- Every other slot keeps its value. -/
theorem Regs.get_set_other (r : Regs) {t u : Slot} (h : u ≠ t) (v : Word) : (r.set t v).get u = r.get u := by
  cases t <;> cases u <;> first | rfl | exact absurd rfl h

/-- Reading a name whose slot is not written. -/
theorem State.readReg_writeReg_other (s : State) {n m : RegName} (h : slotOf m ≠ slotOf n) (v : Word) :
    (s.writeReg n v).readReg m = s.readReg m := by
  simp [State.readReg, Regs.get_set_other s.regs h]

end Sys2Proof.Machine
end

