-- ==== Sys2Proof/Laws/Ops.lean ====
section
/-! SUPPORT. Everything the shared operations of the meanings can do, said once. -/

namespace Sys2Proof.Machine

/-- A guarded effect of an instruction the decoder can return is the effect. -/
theorem ifWellFormed_of {i : Instr} (h : i.wellFormed = true) (r : Result) : ifWellFormed i r = r := by
  simp [ifWellFormed, h]

/-- A guarded effect answers a next state only for an instruction the decoder can return, and then the effect's. -/
theorem ifWellFormed_next {i : Instr} {r : Result} {t : State} :
    ifWellFormed i r = .next t ↔ i.wellFormed = true ∧ r = .next t := by
  unfold ifWellFormed; split <;> simp_all

/-- A guarded effect faults only for an instruction the decoder can return, and then as the effect does. -/
theorem ifWellFormed_fault {i : Instr} {r : Result} {f : Fault} :
    ifWellFormed i r = .fault f ↔ i.wellFormed = true ∧ r = .fault f := by
  unfold ifWellFormed; split <;> simp_all

/-- A guarded effect that itself never refuses refuses exactly the ill-formed terms. -/
theorem ifWellFormed_refused {i : Instr} {r : Result} {x : Refusal} (h : ∀ y, r ≠ .refused y) :
    ifWellFormed i r = .refused x ↔ i.wellFormed = false ∧ x = .illFormed i := by
  unfold ifWellFormed
  split
  · simp_all
  · rename_i hw
    simp only [Bool.not_eq_true] at hw
    simp [hw, eq_comm]

/-- Operands have values exactly when neither is a memory operand. -/
theorem State.val_eq_none {s : State} {op : Operand} : s.val op = none ↔ ∃ bases disp, op = .mem bases disp := by
  cases op <;> simp [State.val]

/-- A two-operand instruction answers a next state when it is well formed and both operands have values, and then the
effect's on those values. -/
theorem onOperands_next {i : Instr} {dst src : Operand} {s t : State} {effect : Word → Word → State} :
    onOperands i dst src s effect = .next t ↔
      i.wellFormed = true ∧ ∃ a b, s.val dst = some a ∧ s.val src = some b ∧ effect a b = t := by
  unfold onOperands
  rw [ifWellFormed_next]
  refine and_congr_right fun _ => ?_
  cases s.val dst <;> cases s.val src <;> simp [raiseUnsupported]

/-- A two-operand instruction faults when it is well formed and an operand is a memory operand, and then with Unsupported. -/
theorem onOperands_fault {i : Instr} {dst src : Operand} {s : State} {effect : Word → Word → State} {f : Fault} :
    onOperands i dst src s effect = .fault f ↔
      i.wellFormed = true ∧ (s.val dst = none ∨ s.val src = none) ∧ raiseUnsupported i s = .fault f := by
  unfold onOperands
  rw [ifWellFormed_fault]
  refine and_congr_right fun _ => ?_
  cases s.val dst <;> cases s.val src <;> simp

/-- A two-operand instruction refuses exactly the ill-formed terms. -/
theorem onOperands_refused {i : Instr} {dst src : Operand} {s : State} {effect : Word → Word → State} {x : Refusal} :
    onOperands i dst src s effect = .refused x ↔ i.wellFormed = false ∧ x = .illFormed i := by
  refine ifWellFormed_refused fun y => ?_
  cases s.val dst <;> cases s.val src <;> simp [raiseUnsupported]

/-- An unexecuted branch never answers a next state. -/
theorem unexecutedBranch_next {i : Instr} {s t : State} : unexecutedBranch i s ≠ .next t := by
  simp [unexecutedBranch, ifWellFormed_next, raiseUnsupported]

end Sys2Proof.Machine
end

