-- ==== Sys2Proof/Laws/PerInstr.lean ====
section
/-! SUPPORT. Statements made per instruction. EncodedSize: the bytes of a well-formed instruction are as many as its family's
size (30_encoding.md rule R71). -/

namespace Sys2Proof.Laws.EncodedSize

/-- The encoding of a well-formed instruction has the size of its family, 2 to 6 bytes (R71). -/
def Statement (i : Instr) : Prop :=
  i.wellFormed = true → (encode i).length = i.size ∧ 2 ≤ i.size ∧ i.size ≤ Config.maxInstrLen

/-- The addressing byte and the displacement of an operand. -/
theorem length_encodeRm (rm : Operand) (mid : BitVec 3) : (rm.encodeRm mid).length = 1 + rm.dispBytes := by
  rcases rm with _ | ⟨_, _ | _ | _⟩ | _ | _ <;> rfl

theorem length_imm (imm : Imm) : imm.encode.length = imm.bytes := by cases imm <;> rfl

theorem length_rmiImm (imm : RmiImm) : imm.encode.length = imm.bytes := by cases imm <;> rfl

theorem dispBytes_le (rm : Operand) : rm.dispBytes ≤ 2 := by
  rcases rm with _ | ⟨_, _ | _ | _⟩ | _ | _ <;> simp [Operand.dispBytes]

theorem imm_bytes (imm : Imm) : 1 ≤ imm.bytes ∧ imm.bytes ≤ 2 := by cases imm <;> simp [Imm.bytes]

theorem rmiImm_bytes (imm : RmiImm) : 1 ≤ imm.bytes ∧ imm.bytes ≤ 2 := by cases imm <;> simp [RmiImm.bytes]

theorem movRm (d : Dir) (rm : Operand) (reg : RegName) : Statement (.movRm d rm reg) := by
  intro _
  have := dispBytes_le rm
  simp only [encode, encodeRmForm, List.length_cons, length_encodeRm, Instr.size, Config.maxInstrLen]
  omega

theorem movRegi (reg : RegName) (imm : Imm) : Statement (.movRegi reg imm) := by
  intro _
  have := imm_bytes imm
  simp only [encode, encodeRegiForm, List.length_cons, length_imm, Instr.size, Config.maxInstrLen]
  omega

theorem addRm (d : Dir) (rm : Operand) (reg : RegName) : Statement (.addRm d rm reg) := by
  intro _
  have := dispBytes_le rm
  simp only [encode, encodeRmForm, List.length_cons, length_encodeRm, Instr.size, Config.maxInstrLen]
  omega

theorem addAcc (imm : Imm) : Statement (.addAcc imm) := by
  intro _
  have := imm_bytes imm
  simp only [encode, encodeAccForm, List.length_cons, length_imm, Instr.size, Config.maxInstrLen]
  omega

theorem addRmi (rm : Operand) (imm : RmiImm) : Statement (.addRmi rm imm) := by
  intro _
  have := dispBytes_le rm
  have := rmiImm_bytes imm
  simp only [encode, encodeRmiForm, List.length_cons, List.length_append, length_encodeRm, length_rmiImm, Instr.size,
    Config.maxInstrLen]
  omega

theorem subRm (d : Dir) (rm : Operand) (reg : RegName) : Statement (.subRm d rm reg) := by
  intro _
  have := dispBytes_le rm
  simp only [encode, encodeRmForm, List.length_cons, length_encodeRm, Instr.size, Config.maxInstrLen]
  omega

theorem subAcc (imm : Imm) : Statement (.subAcc imm) := by
  intro _
  have := imm_bytes imm
  simp only [encode, encodeAccForm, List.length_cons, length_imm, Instr.size, Config.maxInstrLen]
  omega

theorem subRmi (rm : Operand) (imm : RmiImm) : Statement (.subRmi rm imm) := by
  intro _
  have := dispBytes_le rm
  have := rmiImm_bytes imm
  simp only [encode, encodeRmiForm, List.length_cons, List.length_append, length_encodeRm, length_rmiImm, Instr.size,
    Config.maxInstrLen]
  omega

theorem cmpRm (d : Dir) (rm : Operand) (reg : RegName) : Statement (.cmpRm d rm reg) := by
  intro _
  have := dispBytes_le rm
  simp only [encode, encodeRmForm, List.length_cons, length_encodeRm, Instr.size, Config.maxInstrLen]
  omega

theorem cmpAcc (imm : Imm) : Statement (.cmpAcc imm) := by
  intro _
  have := imm_bytes imm
  simp only [encode, encodeAccForm, List.length_cons, length_imm, Instr.size, Config.maxInstrLen]
  omega

theorem cmpRmi (rm : Operand) (imm : RmiImm) : Statement (.cmpRmi rm imm) := by
  intro _
  have := dispBytes_le rm
  have := rmiImm_bytes imm
  simp only [encode, encodeRmiForm, List.length_cons, List.length_append, length_encodeRm, length_rmiImm, Instr.size,
    Config.maxInstrLen]
  omega

theorem jo (disp : Int) : Statement (.jo disp) :=
  fun _ => ⟨rfl, Nat.le_refl 2, by simp [Instr.size, Config.maxInstrLen]⟩

theorem jno (disp : Int) : Statement (.jno disp) :=
  fun _ => ⟨rfl, Nat.le_refl 2, by simp [Instr.size, Config.maxInstrLen]⟩

theorem jb (disp : Int) : Statement (.jb disp) :=
  fun _ => ⟨rfl, Nat.le_refl 2, by simp [Instr.size, Config.maxInstrLen]⟩

theorem jnb (disp : Int) : Statement (.jnb disp) :=
  fun _ => ⟨rfl, Nat.le_refl 2, by simp [Instr.size, Config.maxInstrLen]⟩

theorem je (disp : Int) : Statement (.je disp) :=
  fun _ => ⟨rfl, Nat.le_refl 2, by simp [Instr.size, Config.maxInstrLen]⟩

theorem jne (disp : Int) : Statement (.jne disp) :=
  fun _ => ⟨rfl, Nat.le_refl 2, by simp [Instr.size, Config.maxInstrLen]⟩

theorem jbe (disp : Int) : Statement (.jbe disp) :=
  fun _ => ⟨rfl, Nat.le_refl 2, by simp [Instr.size, Config.maxInstrLen]⟩

theorem ja (disp : Int) : Statement (.ja disp) :=
  fun _ => ⟨rfl, Nat.le_refl 2, by simp [Instr.size, Config.maxInstrLen]⟩

theorem js (disp : Int) : Statement (.js disp) :=
  fun _ => ⟨rfl, Nat.le_refl 2, by simp [Instr.size, Config.maxInstrLen]⟩

theorem jns (disp : Int) : Statement (.jns disp) :=
  fun _ => ⟨rfl, Nat.le_refl 2, by simp [Instr.size, Config.maxInstrLen]⟩

theorem jp (disp : Int) : Statement (.jp disp) :=
  fun _ => ⟨rfl, Nat.le_refl 2, by simp [Instr.size, Config.maxInstrLen]⟩

theorem jnp (disp : Int) : Statement (.jnp disp) :=
  fun _ => ⟨rfl, Nat.le_refl 2, by simp [Instr.size, Config.maxInstrLen]⟩

theorem jl (disp : Int) : Statement (.jl disp) :=
  fun _ => ⟨rfl, Nat.le_refl 2, by simp [Instr.size, Config.maxInstrLen]⟩

theorem jnl (disp : Int) : Statement (.jnl disp) :=
  fun _ => ⟨rfl, Nat.le_refl 2, by simp [Instr.size, Config.maxInstrLen]⟩

theorem jle (disp : Int) : Statement (.jle disp) :=
  fun _ => ⟨rfl, Nat.le_refl 2, by simp [Instr.size, Config.maxInstrLen]⟩

theorem jg (disp : Int) : Statement (.jg disp) :=
  fun _ => ⟨rfl, Nat.le_refl 2, by simp [Instr.size, Config.maxInstrLen]⟩

theorem loopnz (disp : Int) : Statement (.loopnz disp) :=
  fun _ => ⟨rfl, Nat.le_refl 2, by simp [Instr.size, Config.maxInstrLen]⟩

theorem loopz (disp : Int) : Statement (.loopz disp) :=
  fun _ => ⟨rfl, Nat.le_refl 2, by simp [Instr.size, Config.maxInstrLen]⟩

theorem loop (disp : Int) : Statement (.loop disp) :=
  fun _ => ⟨rfl, Nat.le_refl 2, by simp [Instr.size, Config.maxInstrLen]⟩

theorem jcxz (disp : Int) : Statement (.jcxz disp) :=
  fun _ => ⟨rfl, Nat.le_refl 2, by simp [Instr.size, Config.maxInstrLen]⟩

end Sys2Proof.Laws.EncodedSize
end

