-- ==== Sys2Proof/Laws/Step.lean ====
section
/-! SUPPORT. What one step can do, said once (40_cycle.md rule R120). -/

namespace Sys2Proof.Machine

/-- A running core at or beyond the end of the image halts (R121). -/
theorem step_at_end {s : State} (hr : s.status = .running) (he : s.image.len ≤ s.ip.toNat) : step s = .next s.halt := by
  simp [step, hr, State.atEnd, he]

/-- A running core inside the image decodes and executes. -/
theorem step_inside {s : State} (hr : s.status = .running) (he : s.ip.toNat < s.image.len) :
    step s = decodeAndExecute s := by
  simp [step, hr, State.atEnd, Nat.not_le.2 he]

/-- A core that is not running stays as it is (60_exceptions.md R220). -/
theorem step_stopped {s : State} (hr : s.status ≠ .running) : step s = .next s := by
  unfold step; cases h : s.status <;> simp_all

/-- Every way a step can go: not running, halting, a decode error, or the execution of what was decoded. -/
theorem step_cases (s : State) :
    (s.status ≠ .running ∧ step s = .next s) ∨
    (s.status = .running ∧ s.image.len ≤ s.ip.toNat ∧ step s = .next s.halt) ∨
    (s.status = .running ∧ s.ip.toNat < s.image.len ∧ ∃ e c, s.decodeAtIp = .err e c ∧
      step s = raiseDecodeFault e (s.recordDecode (.err e c))) ∨
    (s.status = .running ∧ s.ip.toNat < s.image.len ∧ ∃ i c, s.decodeAtIp = .ok i c ∧
      step s = exec i ((s.recordDecode (.ok i c)).advance c.count)) := by
  by_cases hr : s.status = .running
  · rcases Nat.lt_or_ge s.ip.toNat s.image.len with he | he
    · rw [step_inside hr he]
      cases h : s.decodeAtIp with
      | err e c => exact .inr (.inr (.inl ⟨hr, he, e, c, rfl, by simp [decodeAndExecute, h]⟩))
      | ok i c => exact .inr (.inr (.inr ⟨hr, he, i, c, rfl, by simp [decodeAndExecute, h]⟩))
    · exact .inr (.inl ⟨hr, he, step_at_end hr he⟩)
  · exact .inl ⟨hr, step_stopped hr⟩

end Sys2Proof.Machine
end

