-- ==== Sys2Proof/Tests/Slice0.lean ====
section
/-! SUPPORT. Tests of the model on values from spec/ (95_test_vectors.md and the examples of the rules), a word of every
constructor, an ill-formed term for every check of WellFormed, and a witness for every statement that has hypotheses. -/

namespace Sys2Proof.Tests

open Sys2Proof.Machine

/-! ## Helpers -/

/-- A running machine with these bytes as its image. -/
def load (bs : List Byte) (ext : SwImmExt := .zero) : State :=
  { State.reset with image := Memory.ofBytes bs, swImmExt := ext }

/-- The machine with other values in AX, BX, CX. -/
def withAbc (s : State) (a b c : Word) : State := { s with regs := { s.regs with ax := a, bx := b, cx := c } }

/-- The next state, if there is one. -/
def nextOf : Result → Option State
  | .next t => some t
  | .fault _ | .refused _ => none

/-- What one step leaves in a register and the two flags. -/
def reads (n : RegName) (s : State) : Option (Word × Bool × Bool) :=
  (nextOf (step s)).map fun t => (t.readReg n, t.zf, t.sf)

/-- Where one step leaves the instruction pointer. -/
def goesTo (s : State) : Option Word := (nextOf (step s)).map fun t => t.ip

/-- The refusal, if there is one. -/
def refusalOf : Result → Option Refusal
  | .refused r => some r
  | .next _ | .fault _ => none

/-- The fault, if there is one. -/
def faultOf : Result → Option Fault
  | .fault f => some f
  | .next _ | .refused _ => none

/-! ## WellFormed: an ill-formed term for each check (40_cycle.md R130) -/

theorem test_rm_widths_must_agree : (Instr.movRm .toRm (.reg .al) .bx).wellFormed = false := by decide

theorem test_rm_operand_is_no_imm8 : (Instr.addRm .toRm (.imm8 0x01#8) .al).wellFormed = false := by decide

theorem test_rm_operand_is_no_imm16 : (Instr.cmpRmi (.imm16 0x0001#16) (.word 0x0001#16)).wellFormed = false := by decide

theorem test_bases_are_of_the_table : (Instr.subRm .toReg (.mem [.si, .bx] (.d8 0)) .ax).wellFormed = false := by decide

theorem test_bp_alone_needs_a_displacement : (Instr.movRm .toReg (.mem [.bp] .none) .ax).wellFormed = false := by decide

theorem test_no_base_needs_16_bits : (Instr.movRm .toReg (.mem [] (.d8 5)) .ax).wellFormed = false := by decide

theorem test_no_base_needs_a_displacement : (Instr.movRm .toReg (.mem [] .none) .ax).wellFormed = false := by decide

theorem test_disp8_is_signed : (Instr.movRm .toReg (.mem [.bx] (.d8 128)) .ax).wellFormed = false := by decide

theorem test_d16_bases_are_of_the_table : (Instr.movRm .toReg (.mem [.ax] (.d16 0x0000#16)) .ax).wellFormed = false := by decide

theorem test_regi_widths_must_agree : (Instr.movRegi .al (.imm16 0x0001#16)).wellFormed = false := by decide

theorem test_rmi_widths_must_agree : (Instr.addRmi (.reg .al) (.short 0x01#8)).wellFormed = false := by decide

theorem test_branch_displacement_is_signed_8_bits :
    (Instr.jne 128).wellFormed = false ∧ (Instr.jcxz (-129)).wellFormed = false := by decide

theorem test_ill_formed_is_refused :
    refusalOf (exec (.movRegi .al (.imm16 0x0001#16)) State.reset) = some (.illFormed (.movRegi .al (.imm16 0x0001#16))) := by
  decide

/-! ## A written word for every constructor (95_test_vectors.md 2.1 to 2.5)

The first of each family is written bit by bit from 30_encoding.md. -/

/-- `89 D8`: 100010 d=0 w=1, mod=11 reg=011 rm=000. -/
theorem test_decode_movRm : decodeBytes [0b10001001#8, 0b11011000#8] = .ok (.movRm .toRm (.reg .ax) .bx) ⟨2, 2⟩ := by decide

/-- `B4 01`: 1011 w=0 reg=100, imm8. -/
theorem test_decode_movRegi : decodeBytes [0b10110100#8, 0x01#8] = .ok (.movRegi .ah (.imm8 0x01#8)) ⟨2, 2⟩ := by decide

/-- `03 4E 02`: 000000 d=1 w=1, mod=01 reg=001 rm=110, disp8. -/
theorem test_decode_addRm :
    decodeBytes [0b00000011#8, 0b01001110#8, 0x02#8] = .ok (.addRm .toReg (.mem [.bp] (.d8 2)) .cx) ⟨3, 3⟩ := by decide

/-- `05 34 12`: 0000010 w=1, imm16. -/
theorem test_decode_addAcc : decodeBytes [0b00000101#8, 0x34#8, 0x12#8] = .ok (.addAcc (.imm16 0x1234#16)) ⟨3, 3⟩ := by decide

/-- `82 C0 80`: 100000 s=1 w=0, mod=11 selector=000 rm=000, imm8. -/
theorem test_decode_addRmi :
    decodeBytes [0b10000010#8, 0b11000000#8, 0x80#8] = .ok (.addRmi (.reg .al) (.byte true 0x80#8)) ⟨3, 3⟩ := by decide

theorem test_decode_subRm :
    decodeBytes [0x2B#8, 0x06#8, 0x00#8, 0x00#8] = .ok (.subRm .toReg (.mem [] (.d16 0x0000#16)) .ax) ⟨4, 4⟩ := by decide

theorem test_decode_subAcc : decodeBytes [0x2C#8, 0x01#8] = .ok (.subAcc (.imm8 0x01#8)) ⟨2, 2⟩ := by decide

theorem test_decode_subRmi : decodeBytes [0x83#8, 0xE9#8, 0x01#8] = .ok (.subRmi (.reg .cx) (.short 0x01#8)) ⟨3, 3⟩ := by decide

theorem test_decode_cmpRm :
    decodeBytes [0x3B#8, 0x7A#8, 0x80#8] = .ok (.cmpRm .toReg (.mem [.bp, .si] (.d8 (-128))) .di) ⟨3, 3⟩ := by decide

theorem test_decode_cmpAcc : decodeBytes [0x3D#8, 0xFF#8, 0xFF#8] = .ok (.cmpAcc (.imm16 0xFFFF#16)) ⟨3, 3⟩ := by decide

theorem test_decode_cmpRmi :
    decodeBytes [0x80#8, 0x3E#8, 0x34#8, 0x12#8, 0x05#8] =
      .ok (.cmpRmi (.mem [] (.d16 0x1234#16)) (.byte false 0x05#8)) ⟨5, 5⟩ := by decide

/-- The 16 conditional branches of 95_test_vectors.md 2.5: 0111 and the condition, disp8. -/
theorem test_decode_jo : decodeBytes [0b01110000#8, 0x00#8] = .ok (.jo 0) ⟨2, 2⟩ := by decide
theorem test_decode_jno : decodeBytes [0b01110001#8, 0x01#8] = .ok (.jno 1) ⟨2, 2⟩ := by decide
theorem test_decode_jb : decodeBytes [0b01110010#8, 0xFF#8] = .ok (.jb (-1)) ⟨2, 2⟩ := by decide
theorem test_decode_jnb : decodeBytes [0b01110011#8, 0x7F#8] = .ok (.jnb 127) ⟨2, 2⟩ := by decide
theorem test_decode_je : decodeBytes [0b01110100#8, 0x80#8] = .ok (.je (-128)) ⟨2, 2⟩ := by decide
theorem test_decode_jne : decodeBytes [0b01110101#8, 0xFB#8] = .ok (.jne (-5)) ⟨2, 2⟩ := by decide
theorem test_decode_jbe : decodeBytes [0b01110110#8, 0x02#8] = .ok (.jbe 2) ⟨2, 2⟩ := by decide
theorem test_decode_ja : decodeBytes [0b01110111#8, 0xFE#8] = .ok (.ja (-2)) ⟨2, 2⟩ := by decide
theorem test_decode_js : decodeBytes [0b01111000#8, 0x10#8] = .ok (.js 16) ⟨2, 2⟩ := by decide
theorem test_decode_jns : decodeBytes [0b01111001#8, 0xF0#8] = .ok (.jns (-16)) ⟨2, 2⟩ := by decide
theorem test_decode_jp : decodeBytes [0b01111010#8, 0x00#8] = .ok (.jp 0) ⟨2, 2⟩ := by decide
theorem test_decode_jnp : decodeBytes [0b01111011#8, 0x00#8] = .ok (.jnp 0) ⟨2, 2⟩ := by decide
theorem test_decode_jl : decodeBytes [0b01111100#8, 0x00#8] = .ok (.jl 0) ⟨2, 2⟩ := by decide
theorem test_decode_jnl : decodeBytes [0b01111101#8, 0x00#8] = .ok (.jnl 0) ⟨2, 2⟩ := by decide
theorem test_decode_jle : decodeBytes [0b01111110#8, 0x00#8] = .ok (.jle 0) ⟨2, 2⟩ := by decide
theorem test_decode_jg : decodeBytes [0b01111111#8, 0x00#8] = .ok (.jg 0) ⟨2, 2⟩ := by decide

/-- The 4 loop forms of 95_test_vectors.md 2.5: 111000 and the kind, disp8. -/
theorem test_decode_loopnz : decodeBytes [0b11100000#8, 0xFC#8] = .ok (.loopnz (-4)) ⟨2, 2⟩ := by decide
theorem test_decode_loopz : decodeBytes [0b11100001#8, 0xFC#8] = .ok (.loopz (-4)) ⟨2, 2⟩ := by decide
theorem test_decode_loop : decodeBytes [0b11100010#8, 0xFE#8] = .ok (.loop (-2)) ⟨2, 2⟩ := by decide
theorem test_decode_jcxz : decodeBytes [0b11100011#8, 0x00#8] = .ok (.jcxz 0) ⟨2, 2⟩ := by decide

/-! ## The decode port on the spec's vectors -/

/-- S8, S9 of 95_test_vectors.md: rm 110 is a direct address under mod 00 and BP under mod 01. -/
theorem test_rm_110 :
    decodePort (load [0x8B#8, 0x1E#8, 0x34#8, 0x12#8]) 0x0000#16 = .ok (.mov (.reg .bx) (.mem [] (.d16 0x1234#16)) 4) ∧
    decodePort (load [0x8B#8, 0x46#8, 0xFE#8]) 0x0000#16 = .ok (.mov (.reg .ax) (.mem [.bp] (.d8 (-2))) 3) := by decide

/-- S11: the two encodings of `cmp al, bl` give one instruction. -/
theorem test_two_encodings_of_cmp_al_bl :
    decodePort (load [0x38#8, 0xD8#8]) 0x0000#16 = .ok (.cmp (.reg .al) (.reg .bl) 2) ∧
    decodePort (load [0x3A#8, 0xC3#8]) 0x0000#16 = .ok (.cmp (.reg .al) (.reg .bl) 2) := by decide

/-- 95_test_vectors.md 2.3: the 6-byte maximum. -/
theorem test_longest_instruction :
    decodePort (load [0x81#8, 0x06#8, 0x34#8, 0x12#8, 0x78#8, 0x56#8]) 0x0000#16 =
      .ok (.add (.mem [] (.d16 0x1234#16)) (.imm16 0x5678#16) 6) := by decide

/-- 95_test_vectors.md 2.3: `83 C0 FF` under both settings. -/
theorem test_short_immediate :
    decodePort (load [0x83#8, 0xC0#8, 0xFF#8] .zero) 0x0000#16 = .ok (.add (.reg .ax) (.imm16 0x00FF#16) 3) ∧
    decodePort (load [0x83#8, 0xC0#8, 0xFF#8] .sign) 0x0000#16 = .ok (.add (.reg .ax) (.imm16 0xFFFF#16) 3) := by decide

/-- 95_test_vectors.md 2.3: the five invalid selectors, before the missing immediate too. -/
theorem test_invalid_selectors :
    decodePort (load [0x80#8, 0xC8#8]) 0x0000#16 = .err (.unknownInstruction 0x80#8 0x0000#16) ∧
    decodePort (load [0x81#8, 0xD0#8, 0x00#8, 0x00#8]) 0x0000#16 = .err (.unknownInstruction 0x81#8 0x0000#16) ∧
    decodePort (load [0x80#8, 0xD8#8, 0x01#8]) 0x0000#16 = .err (.unknownInstruction 0x80#8 0x0000#16) ∧
    decodePort (load [0x83#8, 0xE0#8, 0x01#8]) 0x0000#16 = .err (.unknownInstruction 0x83#8 0x0000#16) ∧
    decodePort (load [0x80#8, 0xF0#8, 0x01#8]) 0x0000#16 = .err (.unknownInstruction 0x80#8 0x0000#16) := by decide

/-- 95_test_vectors.md 2.6: unmapped leading bytes. -/
theorem test_unmapped_leading_bytes :
    ∀ b ∈ [0x90#8, 0x0F#8, 0xFF#8, 0xC3#8, 0x06#8, 0x84#8],
      decodePort (load [b, 0xC0#8]) 0x0000#16 = .err (.unknownInstruction b 0x0000#16) := by decide

/-- 95_test_vectors.md 2.6: images that end inside an instruction. -/
theorem test_truncated_images :
    ∀ bs ∈ [[], [0x81#8], [0x80#8], [0xB8#8, 0x34#8], [0x8B#8, 0x46#8], [0x8B#8, 0x06#8, 0x34#8],
        [0x81#8, 0x06#8, 0x34#8, 0x12#8, 0x78#8], [0x75#8]],
      decodePort (load bs) 0x0000#16 = .err .endOfInstructionStream := by decide

/-- 95_test_vectors.md 2.6: 62 leading bytes are mapped. -/
theorem test_mapped_leading_bytes :
    ((List.range 256).filter fun b => decide (dispatch (BitVec.ofNat 8 b) ≠ .none)).length = 62 := by decide

/-! ## Words as spec/opcode_table.json numbers them -/

/-- The ADD row of family RM, and the CMP row of family RMI with its leading byte in bits 15:8. -/
theorem test_table_words :
    decodeTableWord 8 0x00 = some (.addRm .toRm (.mem [.bx, .si] .none) .al) ∧
    decodeTableWord 8 0x75 = some (.jne 0) ∧
    decodeTableWord 16 0x8038 = some (.cmpRmi (.mem [.bx, .si] .none) (.byte false 0x00#8)) ∧
    decodeTableWord 8 0x90 = none := by decide

theorem test_withFetchWord_runs_the_word :
    (nextOf (step (State.reset.withFetchWord 8 0xB0))).map (fun t => t.last) = some (some (.ok (.mov (.reg .al) (.imm8 0x00#8) 2))) := by
  decide

/-! ## One step of each instruction (95_test_vectors.md Part 1, 2.7, 2.8, 2.9) -/

/-- S1, S2: a byte write keeps the other half. -/
theorem test_movRegi_low : reads .ax (withAbc (load [0xB0#8, 0xFF#8]) 0x1234#16 0 0) = some (0x12FF#16, false, false) := by decide
theorem test_movRegi_high : reads .ax (withAbc (load [0xB4#8, 0xFF#8]) 0x1234#16 0 0) = some (0xFF34#16, false, false) := by decide

/-- `mov ah, bl` and `mov ax, bx`. -/
theorem test_movRm_byte : reads .ax (withAbc (load [0x88#8, 0xDC#8]) 0x1234#16 0x00FF#16 0) = some (0xFF34#16, false, false) := by
  decide
theorem test_movRm_keeps_flags :
    reads .ax { withAbc (load [0x89#8, 0xD8#8]) 0 0xABCD#16 0 with zf := true, sf := true } = some (0xABCD#16, true, true) := by decide

/-- `add ah, al` and `add ax, ax`. -/
theorem test_addRm_byte : reads .ax (withAbc (load [0x00#8, 0xC4#8]) 0x01FF#16 0 0) = some (0x00FF#16, true, false) := by decide
theorem test_addRm_wraps : reads .ax (withAbc (load [0x01#8, 0xC0#8]) 0x8000#16 0 0) = some (0x0000#16, true, false) := by decide

/-- `add al, 1` with no carry into AH, and the sign of `add ax, 1`. -/
theorem test_addAcc_byte : reads .ax (withAbc (load [0x04#8, 0x01#8]) 0x12FF#16 0 0) = some (0x1200#16, true, false) := by decide
theorem test_addAcc_sign : reads .ax (withAbc (load [0x05#8, 0x01#8, 0x00#8]) 0x7FFF#16 0 0) = some (0x8000#16, false, true) := by
  decide

/-- `83 C1 FF` on CX = 1 under both settings. -/
theorem test_addRmi_zero :
    reads .cx (withAbc (load [0x83#8, 0xC1#8, 0xFF#8] .zero) 0 0 0x0001#16) = some (0x0100#16, false, false) := by decide
theorem test_addRmi_sign :
    reads .cx (withAbc (load [0x83#8, 0xC1#8, 0xFF#8] .sign) 0 0 0x0001#16) = some (0x0000#16, true, false) := by decide

/-- `sub ax, cx` and `sub bh, ah`. -/
theorem test_subRm_word :
    reads .ax (withAbc (load [0x29#8, 0xC8#8]) 0x0010#16 0 0x0020#16) = some (0xFFF0#16, false, true) := by decide
theorem test_subRm_high_halves :
    reads .bx (withAbc (load [0x2A#8, 0xFC#8]) 0x0080#16 0x8000#16 0) = some (0x8000#16, false, true) := by decide

/-- `sub al, 1` borrows nothing from AH, and `sub ax, 1` from 8000. -/
theorem test_subAcc_byte : reads .ax (withAbc (load [0x2C#8, 0x01#8]) 0x1200#16 0 0) = some (0x12FF#16, false, true) := by decide
theorem test_subAcc_word : reads .ax (withAbc (load [0x2D#8, 0x01#8, 0x00#8]) 0x8000#16 0 0) = some (0x7FFF#16, false, false) := by
  decide

/-- `83 E9 01`: `sub cx, 1`. -/
theorem test_subRmi : reads .cx (withAbc (load [0x83#8, 0xE9#8, 0x01#8]) 0 0 0x0003#16) = some (0x0002#16, false, false) := by decide

/-- S5 `cmp al, bl`, and `cmp bx, cx`. -/
theorem test_cmpRm_equal :
    reads .ax (withAbc (load [0x38#8, 0xD8#8]) 0x0005#16 0x0005#16 0) = some (0x0005#16, true, false) := by decide
theorem test_cmpRm_less :
    reads .bx (withAbc (load [0x39#8, 0xCB#8]) 0 0x0010#16 0x0020#16) = some (0x0010#16, false, true) := by decide

/-- `cmp al, 127` and `cmp al, 1`. -/
theorem test_cmpAcc_equal : reads .ax (withAbc (load [0x3C#8, 0x7F#8]) 0x007F#16 0 0) = some (0x007F#16, true, false) := by decide
theorem test_cmpAcc_less : reads .ax (load [0x3C#8, 0x01#8]) = some (0x0000#16, false, true) := by decide

/-- `cmp bx, 256` and `cmp dl, 128`. -/
theorem test_cmpRmi_word :
    reads .bx (withAbc (load [0x81#8, 0xFB#8, 0x00#8, 0x01#8]) 0 0x0100#16 0) = some (0x0100#16, true, false) := by decide
theorem test_cmpRmi_byte :
    reads .dx { load [0x80#8, 0xFA#8, 0x80#8] with regs := { Regs.reset with dx := 0x0080#16 } } = some (0x0080#16, true, false) := by
  decide

/-- S6, S7: JNE at 10. -/
theorem test_jne_taken :
    goesTo { load [0#8, 0#8, 0#8, 0#8, 0#8, 0#8, 0#8, 0#8, 0#8, 0#8, 0x75#8, 0xFB#8] with ip := 10#16 } = some 0x0007#16 := by decide
theorem test_jne_not_taken :
    goesTo { load [0#8, 0#8, 0#8, 0#8, 0#8, 0#8, 0#8, 0#8, 0#8, 0#8, 0x75#8, 0xFB#8] with ip := 10#16, zf := true } =
      some 0x000C#16 := by decide

/-- `75 80` at 0 goes below 0 and wraps. -/
theorem test_jne_wraps : goesTo (load [0x75#8, 0x80#8]) = some 0xFF82#16 := by decide

/-- 2.9: LOOP stops with Unsupported, CX kept, `ip` advanced. -/
theorem test_loop_stops :
    (stateAfter (step (withAbc (load [0xE2#8, 0xFE#8]) 0 0 0x0005#16))).map (fun t => (t.regs.cx, t.ip, t.status)) =
      some (0x0005#16, 0x0002#16, .unsupported (.branch .loop (-2) 2)) := by decide

/-- R173 to R192: every branch leading byte but 75 stops with Unsupported and carries the kind of its row. -/
theorem test_unexecuted_branches_stop :
    ∀ p ∈ [(0x70#8, BranchKind.jo), (0x71#8, .jno), (0x72#8, .jb), (0x73#8, .jnb), (0x74#8, .je), (0x76#8, .jbe), (0x77#8, .ja),
        (0x78#8, .js), (0x79#8, .jns), (0x7A#8, .jp), (0x7B#8, .jnp), (0x7C#8, .jl), (0x7D#8, .jnl), (0x7E#8, .jle), (0x7F#8, .jg),
        (0xE0#8, .loopnz), (0xE1#8, .loopz), (0xE2#8, .loop), (0xE3#8, .jcxz)],
      (stateAfter (step (load [p.1, 0x05#8]))).map (fun t => (t.ip, t.status)) =
        some (0x0002#16, .unsupported (.branch p.2 5 2)) := by decide

/-- 2.10: a memory operand stops with Unsupported, `ip` advanced, no register written. -/
theorem test_memory_operand_stops :
    (stateAfter (step (load [0x8B#8, 0x1E#8, 0x34#8, 0x12#8]))).map (fun t => (t.ip, t.status, t.regs)) =
      some (0x0004#16, .unsupported (.mov (.reg .bx) (.mem [] (.d16 0x1234#16)) 4), Regs.reset) := by decide

/-- 2.10: the two effective addresses. -/
theorem test_effective_addresses :
    effectiveAddress (withAbc State.reset 0 0x1000#16 0) [.bx] (.d16 0x0100#16) = 0x1100#16 ∧
    effectiveAddress { State.reset with regs := { Regs.reset with bp := 0x0001#16, si := 0xFFFF#16 } } [.bp, .si] (.d8 (-128)) =
      0xFF80#16 := by decide

/-- S12, P5: the step at 2 finds the byte 90, and `ip` stays. -/
theorem test_step_on_unknown_byte :
    (stateAfter (step { load [0xB0#8, 0x01#8, 0x90#8] with ip := 0x0002#16 })).map (fun t => (t.ip, t.status)) =
      some (0x0002#16, .decodeFault (.unknownInstruction 0x90#8 0x0002#16)) := by decide

/-- P7: the image ends inside the instruction at 3. -/
theorem test_step_on_truncated :
    (stateAfter (step { load [0xB8#8, 0x34#8, 0x12#8, 0x05#8, 0x01#8] with ip := 0x0003#16 })).map (fun t => (t.ip, t.status)) =
      some (0x0003#16, .decodeFault .endOfInstructionStream) := by decide

/-- P8: `ip` past the end halts, and changes nothing else. -/
theorem test_step_past_the_end :
    nextOf (step { load [0xB0#8, 0x01#8, 0x75#8, 0x10#8] with ip := 0x0014#16 }) =
      some { load [0xB0#8, 0x01#8, 0x75#8, 0x10#8] with ip := 0x0014#16, status := .halted } := by decide

/-- 30_encoding.md R101, 95_test_vectors.md 2.3: a size keyword and a signed offset in the text. -/
theorem test_text :
    instructionText [] 0x0000#16 (.cmp (.mem [.bp] (.d8 (-2))) (.imm16 0x0001#16) 4) = "cmp word [bp - 2], 1" ∧
    instructionText [] 0x0000#16 (.mov (.reg .ah) (.mem [] (.d16 0xFFFF#16)) 4) = "mov ah, [65535]" := by decide

/-! ## Witnesses: the hypotheses of each statement can be met -/

/-- A machine at the last byte pair of the longest image: `B0 00` at 65533. -/
def atTheTop : State :=
  { State.reset with image := { len := 65535, cells := [(65533, 0xB0#8)] }, ip := 65533#16 }

theorem test_witness_DecodeInvertsEncode :
    (Instr.subRmi (.mem [.bp] (.d16 0x0100#16)) (.word 0x1234#16)).wellFormed = true ∧
    ∀ k, k < (encode (.subRmi (.mem [.bp] (.d16 0x0100#16)) (.word 0x1234#16))).length →
      (load [0x81#8, 0xAE#8, 0x00#8, 0x01#8, 0x34#8, 0x12#8]).fetch ((0x0000#16).toNat + k) =
        (encode (.subRmi (.mem [.bp] (.d16 0x0100#16)) (.word 0x1234#16)))[k]? := by decide

theorem test_witness_EncodeInvertsDecode :
    decode atTheTop.fetch 65533#16 = .ok (.movRegi .al (.imm8 0x00#8)) ⟨65535, 2⟩ := by decide

theorem test_witness_DecodeReadsOnlyItsBytes :
    decode (load [0xB0#8, 0x01#8, 0x90#8]).fetch 0x0000#16 = .ok (.movRegi .al (.imm8 0x01#8)) ⟨2, 2⟩ ∧
    ∀ x, x < 0 + 2 → (load [0xB0#8, 0x01#8]).fetch x = (load [0xB0#8, 0x01#8, 0x90#8]).fetch x := by decide

/-- One decoded instruction of each family, and of each number of displacement bytes. -/
theorem test_witness_DecodedSizeByFamily :
    decodeBytes [0x88#8, 0xDC#8] = .ok (.movRm .toRm (.reg .ah) .bl) ⟨2, 2⟩ ∧
    decodeBytes [0x02#8, 0x00#8] = .ok (.addRm .toReg (.mem [.bx, .si] .none) .al) ⟨2, 2⟩ ∧
    decodeBytes [0x8B#8, 0x46#8, 0xFE#8] = .ok (.movRm .toReg (.mem [.bp] (.d8 (-2))) .ax) ⟨3, 3⟩ ∧
    decodeBytes [0x8A#8, 0x26#8, 0xFF#8, 0xFF#8] = .ok (.movRm .toReg (.mem [] (.d16 0xFFFF#16)) .ah) ⟨4, 4⟩ ∧
    decodeBytes [0x01#8, 0x87#8, 0x00#8, 0x01#8] = .ok (.addRm .toRm (.mem [.bx] (.d16 0x0100#16)) .ax) ⟨4, 4⟩ ∧
    decodeBytes [0x3C#8, 0x7F#8] = .ok (.cmpAcc (.imm8 0x7F#8)) ⟨2, 2⟩ ∧
    decodeBytes [0x2D#8, 0x05#8, 0x00#8] = .ok (.subAcc (.imm16 0x0005#16)) ⟨3, 3⟩ ∧
    decodeBytes [0x80#8, 0xC1#8, 0x05#8] = .ok (.addRmi (.reg .cl) (.byte false 0x05#8)) ⟨3, 3⟩ ∧
    decodeBytes [0x81#8, 0xFB#8, 0x00#8, 0x01#8] = .ok (.cmpRmi (.reg .bx) (.word 0x0100#16)) ⟨4, 4⟩ ∧
    decodeBytes [0x83#8, 0xC0#8, 0x7F#8] = .ok (.addRmi (.reg .ax) (.short 0x7F#8)) ⟨3, 3⟩ ∧
    decodeBytes [0xB7#8, 0x80#8] = .ok (.movRegi .bh (.imm8 0x80#8)) ⟨2, 2⟩ ∧
    decodeBytes [0xBC#8, 0x00#8, 0xFF#8] = .ok (.movRegi .sp (.imm16 0xFF00#16)) ⟨3, 3⟩ ∧
    decodeBytes [0x75#8, 0x00#8] = .ok (.jne 0) ⟨2, 2⟩ := by decide

/-- Both sides of the equivalence: an unmapped byte, and each invalid selector at both ends of 80 to 83. -/
theorem test_witness_UnknownInstructionExactly :
    (decodeBytes [0x90#8] = .err (.unknownInstruction 0x90#8 0x0000#16) ⟨1, 1⟩ ∧ dispatch 0x90#8 = .none) ∧
    ∀ b ∈ [0x80#8, 0x83#8], ∀ m ∈ [0xC8#8, 0xD0#8, 0xD8#8, 0xE0#8, 0xF0#8],
      decodeBytes [b, m] = .err (.unknownInstruction b 0x0000#16) ⟨2, 2⟩ ∧ regField m ∈ [1#3, 2#3, 3#3, 4#3, 6#3] := by decide

/-- No byte and all but one of `B8 34 12`. -/
theorem test_witness_TruncatedInstructionIsEndOfStream :
    (Instr.movRegi .ax (.imm16 0x1234#16)).wellFormed = true ∧
    (load []).fetch 0 = none ∧
    (∀ k, k < 2 → (load [0xB8#8, 0x34#8]).fetch (0 + k) = (encode (.movRegi .ax (.imm16 0x1234#16)))[k]?) ∧
    (load [0xB8#8, 0x34#8]).fetch (0 + 2) = none ∧ 2 < (Instr.movRegi .ax (.imm16 0x1234#16)).size := by decide

/-- Selector 000 on AX, both settings, at 7F and 80. -/
theorem test_witness_ShortImmediateUnderBothExtensions_add :
    ∀ ext ∈ [SwImmExt.zero, .sign], ∀ b ∈ [0x7F#8, 0x80#8],
      (load [0x83#8, 0xC0#8, b] ext).fetch (0x0000#16).toNat = some 0x83#8 ∧
      (load [0x83#8, 0xC0#8, b] ext).fetch ((0x0000#16).toNat + 1) = some (addressingByte 0b11#2 0b000#3 0b000#3) ∧
      (load [0x83#8, 0xC0#8, b] ext).fetch ((0x0000#16).toNat + 2) = some b ∧
      (load [0x83#8, 0xC0#8, b] ext).swImmExt = ext := by decide

/-- Selector 101 on AX, both settings, at 7F and 80. -/
theorem test_witness_ShortImmediateUnderBothExtensions_sub :
    ∀ ext ∈ [SwImmExt.zero, .sign], ∀ b ∈ [0x7F#8, 0x80#8],
      (load [0x83#8, 0xE8#8, b] ext).fetch (0x0000#16).toNat = some 0x83#8 ∧
      (load [0x83#8, 0xE8#8, b] ext).fetch ((0x0000#16).toNat + 1) = some (addressingByte 0b11#2 0b101#3 0b000#3) ∧
      (load [0x83#8, 0xE8#8, b] ext).fetch ((0x0000#16).toNat + 2) = some b ∧
      (load [0x83#8, 0xE8#8, b] ext).swImmExt = ext := by decide

/-- Selector 111 on AX, both settings, at 7F and 80. -/
theorem test_witness_ShortImmediateUnderBothExtensions_cmp :
    ∀ ext ∈ [SwImmExt.zero, .sign], ∀ b ∈ [0x7F#8, 0x80#8],
      (load [0x83#8, 0xF8#8, b] ext).fetch (0x0000#16).toNat = some 0x83#8 ∧
      (load [0x83#8, 0xF8#8, b] ext).fetch ((0x0000#16).toNat + 1) = some (addressingByte 0b11#2 0b111#3 0b000#3) ∧
      (load [0x83#8, 0xF8#8, b] ext).fetch ((0x0000#16).toNat + 2) = some b ∧
      (load [0x83#8, 0xF8#8, b] ext).swImmExt = ext := by decide

/-- Each selector on a memory destination, with each number of displacement bytes (95_test_vectors.md 2.3, `83 7E FE 01`). -/
theorem test_witness_ShortImmediateUnderBothExtensions_memory :
    decodePort (load [0x83#8, 0x7E#8, 0xFE#8, 0x01#8]) 0x0000#16 = .ok (.cmp (.mem [.bp] (.d8 (-2))) (.imm16 0x0001#16) 4) ∧
    decodePort (load [0x83#8, 0x07#8, 0x80#8] .sign) 0x0000#16 = .ok (.add (.mem [.bx] .none) (.imm16 0xFF80#16) 3) ∧
    decodePort (load [0x83#8, 0x2E#8, 0x34#8, 0x12#8, 0x80#8] .zero) 0x0000#16 =
      .ok (.sub (.mem [] (.d16 0x1234#16)) (.imm16 0x0080#16) 5) := by decide

/-- The longest image and one byte more. -/
theorem test_witness_BootLoadsTheImage :
    (List.replicate 65535 0x90#8).length ≤ 65535 ∧ 65535 < (List.replicate 65536 0x90#8).length := by
  simp only [List.length_replicate]; decide

/-- The empty image and the longest one. -/
theorem test_witness_ResetKeepsImage :
    ([] : List Byte).length ≤ 65535 ∧ (List.replicate 65535 0x90#8).length ≤ 65535 := by
  simp only [List.length_replicate]; decide

theorem test_witness_CanonicalImagesAreDetermined :
    (Memory.ofBytes [0x00#8, 0x90#8]).wf = true ∧ ({ len := 2, cells := [(1, 0x90#8)] } : Memory).wf = true ∧
    ∀ a, (Memory.ofBytes [0x00#8, 0x90#8]).fetch a = ({ len := 2, cells := [(1, 0x90#8)] } : Memory).fetch a :=
  ⟨by decide, by decide, fun _ => rfl⟩

/-- A next state, and the states of both faults. -/
theorem test_witness_NoStepWritesTheImage :
    (stateAfter (step (load [0xB0#8, 0x01#8]))).isSome = true ∧ (stateAfter (step (load [0x90#8]))).isSome = true ∧
    (stateAfter (step (load [0x74#8, 0x00#8]))).isSome = true := by decide

/-- `ip` at L, and past it. -/
theorem test_witness_StepAtEndHalts :
    (State.reset.status = .running ∧ State.reset.image.len ≤ State.reset.ip.toNat) ∧
    (load [0x90#8]).status = .running ∧ (load [0x90#8]).image.len ≤ ({ load [0x90#8] with ip := 0xFFFF#16 }).ip.toNat := by decide

theorem test_witness_StepRunsDecodedInstruction :
    atTheTop.status = .running ∧ atTheTop.ip.toNat < atTheTop.image.len ∧
    decode atTheTop.fetch atTheTop.ip = .ok (.movRegi .al (.imm8 0x00#8)) ⟨65535, 2⟩ := by decide

theorem test_witness_StepRunsEncodedInstruction :
    (load [0x75#8, 0xFB#8]).status = .running ∧ (Instr.jne (-5)).wellFormed = true ∧
    bytesAtIp (load [0x75#8, 0xFB#8]) (encode (.jne (-5))) := by
  refine ⟨by decide, by decide, ?_⟩
  show ∀ k, k < 2 → _
  decide

/-- Both decode errors. -/
theorem test_witness_StepOnDecodeError :
    ((load [0x90#8]).status = .running ∧ (load [0x90#8]).ip.toNat < (load [0x90#8]).image.len ∧
      decode (load [0x90#8]).fetch (load [0x90#8]).ip = .err (.unknownInstruction 0x90#8 0x0000#16) ⟨1, 1⟩) ∧
    (load [0xB8#8]).ip.toNat < (load [0xB8#8]).image.len ∧
      decode (load [0xB8#8]).fetch (load [0xB8#8]).ip = .err .endOfInstructionStream ⟨1, 1⟩ := by decide

/-- Each clause: a halted machine, a step that runs, one that halts, one of each fault. -/
theorem test_witness_StatusTransitions :
    ({ load [] with status := .halted }).status ≠ .running ∧
    (nextOf (step (load [0xB0#8, 0x01#8]))).map (fun t => t.status) = some .running ∧
    (nextOf (step (load []))).map (fun t => t.status) = some .halted ∧
    (stateAfter (step (load [0x90#8]))).map (fun t => t.status) =
      some (.decodeFault (.unknownInstruction 0x90#8 0x0000#16)) ∧
    (stateAfter (step (load [0x74#8, 0x02#8]))).map (fun t => t.status) = some (.unsupported (.branch .je 2 2)) := by decide

theorem test_witness_AdvanceNeverWraps :
    atTheTop.image.wf = true ∧ decode atTheTop.fetch atTheTop.ip = .ok (.movRegi .al (.imm8 0x00#8)) ⟨65535, 2⟩ := by decide

theorem test_witness_InvariantAtReset : (Memory.ofBytes [0x90#8]).wf = true := by decide

theorem test_witness_EveryStepKeepsTheInvariant : atTheTop.Inv ∧ (stateAfter (step atTheTop)).isSome = true := by
  refine ⟨⟨by decide, Nat.zero_le _, Nat.zero_le _, ?_, ?_, ?_, ?_⟩, by decide⟩ <;> simp [atTheTop, State.reset]

/-- A fault of each kind. -/
theorem test_witness_FaultsLeaveRegistersAndFlags :
    (faultOf (step (load [0x90#8]))).isSome = true ∧ (faultOf (step (load [0x89#8, 0x07#8]))).isSome = true := by decide

theorem test_witness_JneToItselfHangs :
    (load [0x75#8, 0xFE#8]).status = .running ∧ (load [0x75#8, 0xFE#8]).zf = false ∧
    bytesAtIp (load [0x75#8, 0xFE#8]) [0x75#8, 0xFE#8] := by
  refine ⟨by decide, by decide, ?_⟩
  show ∀ k, k < 2 → _
  decide

/-- Two names that share no bit: the halves of one slot, and two slots. -/
theorem test_witness_RegisterReadAfterWrite : overlaps .al .ah = false ∧ overlaps .ax .bl = false := by decide

/-- The least and the greatest result of each width. -/
theorem test_witness_FlagsFromTheResult :
    (0x0000#16).toNat < 2 ^ Width.byte.bits ∧ (0x00FF#16).toNat < 2 ^ Width.byte.bits ∧
    (0x0000#16).toNat < 2 ^ Width.word.bits ∧ (0xFFFF#16).toNat < 2 ^ Width.word.bits := by decide

/-- Each of the three families. -/
theorem test_witness_CmpFlagsAreSubFlags :
    (∃ t u, exec (.cmpRm .toRm (.reg .al) .bl) State.reset = .next t ∧ exec (.subRm .toRm (.reg .al) .bl) State.reset = .next u) ∧
    (∃ t u, exec (.cmpAcc (.imm8 0x01#8)) State.reset = .next t ∧ exec (.subAcc (.imm8 0x01#8)) State.reset = .next u) ∧
    (∃ t u, exec (.cmpRmi (.reg .bx) (.word 0x0100#16)) State.reset = .next t ∧
      exec (.subRmi (.reg .bx) (.word 0x0100#16)) State.reset = .next u) :=
  ⟨⟨_, _, rfl, rfl⟩, ⟨_, _, rfl, rfl⟩, ⟨_, _, rfl, rfl⟩⟩

/-- MOV, ADD, SUB and CMP: registers of one width, both widths. -/
theorem test_witness_MovCompletes :
    RegName.ah.width = RegName.bl.width ∧ RegName.sp.width = RegName.di.width ∧ RegName.al.width = .byte ∧
    RegName.di.width = .word := by decide

theorem test_witness_AddCompletes :
    RegName.bh.width = RegName.al.width ∧ RegName.ax.width = RegName.ax.width ∧ RegName.ch.width = .byte ∧
    RegName.si.width = .word := by decide

theorem test_witness_SubCompletes :
    RegName.dh.width = RegName.dl.width ∧ RegName.bp.width = RegName.sp.width ∧ RegName.cl.width = .byte ∧
    RegName.ax.width = .word := by decide

theorem test_witness_CmpCompletes :
    RegName.al.width = RegName.ah.width ∧ RegName.di.width = RegName.si.width ∧ RegName.bh.width = .byte ∧
    RegName.bx.width = .word := by decide

/-- The ends of the displacement, and both values of ZF. -/
theorem test_witness_JneCompletes :
    ((-128 : Int) ≤ -128 ∧ (-128 : Int) ≤ 127) ∧ ((-128 : Int) ≤ 127 ∧ (127 : Int) ≤ 127) ∧
    State.reset.zf = false ∧ ({ State.reset with zf := true }).zf = true := by decide

theorem test_witness_OtherBranchesAreUnsupported :
    BranchKind.je ≠ .jne ∧ BranchKind.jcxz ≠ .jne ∧ (-128 : Int) ≤ -128 ∧ (-128 : Int) ≤ 127 := by decide

/-- Each displacement kind. -/
theorem test_witness_MemoryOperandsAreUnsupported :
    memWellFormed [.bx] .none = true ∧ memWellFormed [.bp] (.d8 (-128)) = true ∧ memWellFormed [] (.d16 0xFFFF#16) = true := by
  decide

/-- Each of the three outcomes. -/
theorem test_witness_ExecutionOutcomeOfEveryInstruction :
    (Instr.jne 128).wellFormed = false ∧
    ((Instr.jne 127).wellFormed = true ∧ isExecuted (.jne 127) = true) ∧
    ((Instr.je 127).wellFormed = true ∧ isExecuted (.je 127) = false) ∧
    (Instr.cmpRm .toReg (.mem [.si] .none) .ax).wellFormed = true ∧
      isExecuted (.cmpRm .toReg (.mem [.si] .none) .ax) = false := by decide

/-- A write of AL leaves AH; CMP writes nothing; every instruction but JNE keeps `ip`. -/
theorem test_witness_ExecutionFrame :
    (∃ t, exec (.movRegi .al (.imm8 0x01#8)) State.reset = .next t) ∧
    (∀ n, writtenRegister (.movRegi .al (.imm8 0x01#8)) = some n → overlaps n .ah = false) ∧
    (∃ t, exec (.cmpAcc (.imm8 0x01#8)) State.reset = .next t) ∧ writtenRegister (.cmpAcc (.imm8 0x01#8)) = none ∧
    ∀ k, Instr.cmpAcc (.imm8 0x01#8) ≠ .jne k :=
  ⟨⟨_, rfl⟩, fun n h => by cases h; decide, ⟨_, rfl⟩, rfl, fun _ h => nomatch h⟩

/-- A running machine, and each of the four outcomes. -/
theorem test_witness_StepHasOneOfFourOutcomes :
    (load [0xB0#8, 0x01#8]).status = .running ∧ (load []).status = .running ∧ (load [0x90#8]).status = .running ∧
    (load [0x74#8, 0x02#8]).status = .running := by decide

/-- Every instruction but JNE, at two addresses. -/
theorem test_witness_OnlyBranchesReadIp :
    (∀ k, Instr.addAcc (.imm8 0x01#8) ≠ .jne k) ∧ ∃ t, exec (.addAcc (.imm8 0x01#8)) State.reset = .next t :=
  ⟨fun _ h => (nomatch h), _, rfl⟩

/-- A step that runs an ADD, and one that changes no flag. -/
theorem test_witness_FlagWriters_step :
    (stateAfter (step (load [0x04#8, 0x00#8]))).map (fun t => t.zf) = some true ∧
    (stateAfter (step (load [0x75#8, 0x00#8]))).map (fun t => t.zf) = some false := by decide

/-- An instruction that writes the flags and one that does not. -/
theorem test_witness_FlagWriters :
    (∃ t, exec (.addAcc (.imm16 0x0001#16)) State.reset = .next t) ∧ (flagResult State.reset (.addAcc (.imm16 0x0001#16))).isSome ∧
    (∃ t, exec (.jne 0) State.reset = .next t) ∧ flagResult State.reset (.jne 0) = none :=
  ⟨⟨_, rfl⟩, rfl, ⟨_, rfl⟩, rfl⟩

/-- A branch that completes and one that stops. -/
theorem test_witness_BranchesWriteNoRegisterOrFlag :
    (stateAfter (exec (BranchKind.jne.instr (-1)) State.reset)).isSome = true ∧
    (stateAfter (exec (BranchKind.loop.instr (-1)) State.reset)).isSome = true := by decide

/-- A register form, and the greatest short immediate on which the setting does not bear. -/
theorem test_witness_ExtensionBearsOnShortImmediatesOnly :
    (dependsOnExtension (.addRm .toRm (.reg .ax) .bx) = false ∧ ∃ t, exec (.addRm .toRm (.reg .ax) .bx) State.reset = .next t) ∧
    dependsOnExtension (.subRmi (.reg .cx) (.short 0x7F#8)) = false ∧
      ∃ t, exec (.subRmi (.reg .cx) (.short 0x7F#8)) State.reset = .next t :=
  ⟨⟨rfl, _, rfl⟩, rfl, _, rfl⟩

/-- Each of the four operations, d and w at both values. -/
theorem test_witness_RegisterFormsFromTheirBits :
    (load [0x88#8, 0xDC#8]).status = .running ∧
    bytesAtIp (load [0x88#8, 0xDC#8]) [leadingByte 0b100010#6 false false, addressingByte 0b11#2 0b011#3 0b100#3] ∧
    bytesAtIp (load [0x01#8, 0xC0#8]) [leadingByte 0b000000#6 false true, addressingByte 0b11#2 0b000#3 0b000#3] ∧
    bytesAtIp (load [0x2A#8, 0xFC#8]) [leadingByte 0b001010#6 true false, addressingByte 0b11#2 0b111#3 0b100#3] ∧
    bytesAtIp (load [0x3B#8, 0xCB#8]) [leadingByte 0b001110#6 true true, addressingByte 0b11#2 0b001#3 0b011#3] := by
  refine ⟨by decide, ?_, ?_, ?_, ?_⟩ <;> show ∀ k, k < 2 → _ <;> decide

/-- Both values of ZF, at the ends of the displacement. -/
theorem test_witness_JneFromItsBits :
    (load [0x75#8, 0x80#8]).status = .running ∧ (load [0x75#8, 0x80#8]).zf = false ∧
    ({ load [0x75#8, 0x7F#8] with zf := true }).zf = true ∧
    bytesAtIp (load [0x75#8, 0x80#8]) [0x75#8, 0x80#8] ∧ bytesAtIp { load [0x75#8, 0x7F#8] with zf := true } [0x75#8, 0x7F#8] := by
  refine ⟨by decide, by decide, by decide, ?_, ?_⟩ <;> show ∀ k, k < 2 → _ <;> decide

end Sys2Proof.Tests
end

section
/-! SUPPORT. The ALU and the flags as arithmetic on numbers (40_cycle.md rules R126, R128). -/

namespace Sys2Proof.Machine

@[simp] theorem toNat_maskTo (w : Width) (v : Word) : (maskTo w v).toNat = v.toNat % 2 ^ w.bits := by
  cases w with
  | byte => simpa [maskTo, Width.bits] using Nat.and_two_pow_sub_one_eq_mod v.toNat 8
  | word => exact (Nat.mod_eq_of_lt v.isLt).symm

theorem toNat_aluAdd (w : Width) (a b : Word) : (aluAdd w a b).toNat = (a.toNat + b.toNat) % 2 ^ w.bits := by
  cases w <;> simp [aluAdd, Width.bits]

theorem toNat_aluSub (w : Width) (a b : Word) :
    ((aluSub w a b).toNat : Int) = ((a.toNat : Int) - (b.toNat : Int)) % 2 ^ w.bits := by
  have ha := a.isLt
  have hb := b.isLt
  cases w <;> simp [aluSub, neg, toNat_aluAdd, Width.bits] <;> omega

theorem aluAdd_lt (w : Width) (a b : Word) : (aluAdd w a b).toNat < 2 ^ w.bits := by
  rw [toNat_aluAdd]; exact Nat.mod_lt _ (Nat.two_pow_pos _)

theorem aluSub_lt (w : Width) (a b : Word) : (aluSub w a b).toNat < 2 ^ w.bits := aluAdd_lt w a _

/-- The ALU's sum is the sum computed on numbers. -/
theorem aluAdd_eq_sumOf (w : Width) (a b : Word) : aluAdd w a b = sumOf w a b := by
  apply BitVec.eq_of_toNat_eq
  have h := toNat_aluAdd w a b
  cases w <;> simp [sumOf, Width.bits] at h ⊢ <;> omega

/-- The ALU's difference is the one computed on numbers, where the value taken away is of the width. -/
theorem aluSub_eq_differenceOf {w : Width} {b : Word} (a : Word) (hb : b.toNat < 2 ^ w.bits) :
    aluSub w a b = differenceOf w a b := by
  apply BitVec.eq_of_toNat_eq
  have h := toNat_aluSub w a b
  cases w <;> simp [differenceOf, Width.bits] at h hb ⊢ <;> omega

theorem zeroOf_iff (r : Word) : zeroOf r = true ↔ r.toNat = 0 := by
  simp [zeroOf, ← BitVec.toNat_inj]

theorem signOf_iff {w : Width} {r : Word} (hr : r.toNat < 2 ^ w.bits) :
    signOf w r = true ↔ 2 ^ (w.bits - 1) ≤ r.toNat := by
  cases w <;> simp [signOf, BitVec.getLsbD, Nat.testBit_eq_decide_div_mod_eq, Width.bits] at hr ⊢ <;> omega

/-! ### The operands of an instruction the decoder can return have values of its width (10_state.md R9, R23) -/

theorem zext16_lt (b : Byte) : (zext16 b).toNat < 2 ^ Width.byte.bits := by
  simpa [zext16, Width.bits] using Nat.lt_of_le_of_lt (Nat.mod_le _ _) b.isLt

theorem State.readReg_lt (s : State) (n : RegName) : (s.readReg n).toNat < 2 ^ n.width.bits := by
  cases n with
  | al | cl | dl | bl => exact zext16_lt (lowByte _)
  | ah | ch | dh | bh => exact zext16_lt (highByte _)
  | ax | cx | dx | bx | sp | bp | si | di => exact BitVec.isLt _

theorem State.val_lt_of_isRm {s : State} {w : Width} {op : Operand} {v : Word} (hop : op.isRm w = true)
    (hv : s.val op = some v) : v.toNat < 2 ^ w.bits := by
  cases op with
  | reg n =>
    obtain rfl : n.width = w := by simpa [Operand.isRm] using hop
    obtain rfl : s.readReg n = v := by simpa [State.val] using hv
    exact s.readReg_lt n
  | mem bases disp => simp [State.val] at hv
  | imm8 _ | imm16 _ => simp [Operand.isRm] at hop

theorem State.val_src_lt {s : State} {d : Dir} {rm : Operand} {reg : RegName} {v : Word}
    (hrm : rm.isRm reg.width = true) (hv : s.val (d.src rm reg) = some v) : v.toNat < 2 ^ reg.width.bits := by
  cases d with
  | toRm => exact val_lt_of_isRm (op := .reg reg) (by simp [Operand.isRm]) hv
  | toReg => exact val_lt_of_isRm hrm hv

theorem State.val_imm_lt {s : State} {imm : Imm} {v : Word} (hv : s.val imm.operand = some v) :
    v.toNat < 2 ^ imm.width.bits := by
  cases imm with
  | imm8 b =>
    obtain rfl : zext16 b = v := by simpa [State.val, Imm.operand] using hv
    exact zext16_lt b
  | imm16 _ => exact v.isLt

theorem State.val_rmiImm_lt {s : State} {e : SwImmExt} {imm : RmiImm} {v : Word}
    (hv : s.val (imm.operand e) = some v) : v.toNat < 2 ^ imm.width.bits := by
  cases imm with
  | byte _ b => exact s.val_imm_lt (imm := .imm8 b) hv
  | word _ | short _ => exact v.isLt

end Sys2Proof.Machine
end

section
/-! SUPPORT. What the execution of an instruction does to the flags (10_state.md rule R31). -/

namespace Sys2Proof.Machine

/-- The flags of `t` are those of the result, or those of `s` where there is none. -/
def FlagsFollow (s t : State) : Option (Width × Word) → Prop
  | none => t.zf = s.zf ∧ t.sf = s.sf
  | some (w, r) => (t.zf = true ↔ r.toNat = 0) ∧ (t.sf = true ↔ 2 ^ (w.bits - 1) ≤ r.toNat)

/-- Flags set from an n-bit result follow it, whatever else the state has become. -/
theorem flagsFollow_setFlags (s u : State) {w : Width} {r : Word} (hr : r.toNat < 2 ^ w.bits) :
    FlagsFollow s (u.setFlags w r) (some (w, r)) :=
  ⟨zeroOf_iff r, signOf_iff hr⟩

section
variable {i : Instr} {w : Width} {dst src : Operand} {s t : State}

theorem moveOperands_flags (h : moveOperands i dst src s = .next t) : FlagsFollow s t none := by
  obtain ⟨-, a, b, -, -, rfl⟩ := onOperands_next.1 h
  exact ⟨s.writeOperand_zf dst b, s.writeOperand_sf dst b⟩

theorem addOperands_flags (h : addOperands i w dst src s = .next t) :
    FlagsFollow s t (some (w, sumOf w ((s.val dst).getD 0) ((s.val src).getD 0))) := by
  obtain ⟨-, a, b, ha, hb, rfl⟩ := onOperands_next.1 h
  simp only [ha, hb, Option.getD_some, ← aluAdd_eq_sumOf]
  exact flagsFollow_setFlags s _ (aluAdd_lt w a b)

/-- An effect that ends in the flags of the ALU's difference, whatever state it sets them in: SUB and CMP. -/
theorem onOperands_aluSub_flags {written : Word → Word → State}
    (hsrc : i.wellFormed = true → ∀ b, s.val src = some b → b.toNat < 2 ^ w.bits)
    (h : onOperands i dst src s (fun a b => (written a b).setFlags w (aluSub w a b)) = .next t) :
    FlagsFollow s t (some (w, differenceOf w ((s.val dst).getD 0) ((s.val src).getD 0))) := by
  obtain ⟨hi, a, b, ha, hb, rfl⟩ := onOperands_next.1 h
  simp only [ha, hb, Option.getD_some, ← aluSub_eq_differenceOf a (hsrc hi b hb)]
  exact flagsFollow_setFlags s _ (aluSub_lt w a b)

theorem subOperands_flags (hsrc : i.wellFormed = true → ∀ b, s.val src = some b → b.toNat < 2 ^ w.bits)
    (h : subOperands i w dst src s = .next t) :
    FlagsFollow s t (some (w, differenceOf w ((s.val dst).getD 0) ((s.val src).getD 0))) :=
  onOperands_aluSub_flags (written := fun a b => s.writeOperand dst (aluSub w a b)) hsrc h

theorem compareOperands_flags (hsrc : i.wellFormed = true → ∀ b, s.val src = some b → b.toNat < 2 ^ w.bits)
    (h : compareOperands i w dst src s = .next t) :
    FlagsFollow s t (some (w, differenceOf w ((s.val dst).getD 0) ((s.val src).getD 0))) :=
  onOperands_aluSub_flags (written := fun _ _ => s) hsrc h

end

theorem execJne_flags {disp : Int} {s t : State} (h : execJne disp s = .next t) : FlagsFollow s t none := by
  obtain ⟨-, h⟩ := ifWellFormed_next.1 h
  obtain rfl := Host.Outcome.next.inj h
  split <;> exact ⟨rfl, rfl⟩

/-- A completed instruction leaves the flags its result gives, and those it found where it has none. -/
theorem exec_flags {i : Instr} {s t : State} (h : exec i s = .next t) : FlagsFollow s t (flagResult s i) := by
  cases i with
  | movRm | movRegi => exact moveOperands_flags h
  | addRm | addRmi => exact addOperands_flags h
  | addAcc imm => exact addOperands_flags (i := .addAcc imm) h
  | subRm d rm reg => exact subOperands_flags (i := .subRm d rm reg) (fun hrm _ => s.val_src_lt hrm) h
  | subAcc imm => exact subOperands_flags (i := .subAcc imm) (fun _ _ => s.val_imm_lt) h
  | subRmi => exact subOperands_flags (fun _ _ => s.val_rmiImm_lt) h
  | cmpRm d rm reg => exact compareOperands_flags (i := .cmpRm d rm reg) (fun hrm _ => s.val_src_lt hrm) h
  | cmpAcc imm => exact compareOperands_flags (i := .cmpAcc imm) (fun _ _ => s.val_imm_lt) h
  | cmpRmi => exact compareOperands_flags (fun _ _ => s.val_rmiImm_lt) h
  | jne => exact execJne_flags h
  | jo | jno | jb | jnb | je | jbe | ja | js | jns | jp | jnp | jl | jnl | jle | jg | loopnz | loopz | loop | jcxz =>
    exact absurd h unexecutedBranch_next

/-- The only fault an instruction raises is its own Unsupported (R124, R172, R204). The accumulator forms are well formed by
computation, so unification would unfold the guard of `onOperands` away: they name the instruction. -/
theorem exec_fault {i : Instr} {s : State} {f : Fault} (h : exec i s = .fault f) : raiseUnsupported i s = .fault f := by
  cases i with
  | movRm | movRegi | addRm | addRmi | subRm | subRmi | cmpRm | cmpRmi => exact (onOperands_fault.1 h).2.2
  | addAcc imm => exact (onOperands_fault (i := .addAcc imm) |>.1 h).2.2
  | subAcc imm => exact (onOperands_fault (i := .subAcc imm) |>.1 h).2.2
  | cmpAcc imm => exact (onOperands_fault (i := .cmpAcc imm) |>.1 h).2.2
  | jne => exact nomatch (ifWellFormed_fault.1 h).2
  | jo | jno | jb | jnb | je | jbe | ja | js | jns | jp | jnp | jl | jnl | jle | jg | loopnz | loopz | loop | jcxz =>
    exact (ifWellFormed_fault.1 h).2

/-- The state after an instruction is the next one, or the one it stopped in with only the status changed. -/
theorem stateAfter_exec {i : Instr} {s t : State} (h : stateAfter (exec i s) = some t) :
    exec i s = .next t ∨ t = { s with status := .unsupported (i.decoded s.swImmExt) } := by
  cases hx : exec i s with
  | next u =>
    rw [hx] at h
    exact .inl (congrArg _ (Option.some.inj h))
  | fault f =>
    rw [hx, ← exec_fault hx] at h
    exact .inr (Option.some.inj h).symm
  | refused r =>
    rw [hx] at h
    exact nomatch h

/-- Only an instruction with a flag result can leave other flags in the state after it. -/
theorem stateAfter_exec_flags {i : Instr} {s t : State} (h : stateAfter (exec i s) = some t) :
    (t.zf = s.zf ∧ t.sf = s.sf) ∨ (exec i s = .next t ∧ (flagResult s i).isSome = true) := by
  rcases stateAfter_exec h with hn | rfl
  · cases hr : flagResult s i with
    | none =>
      have hf := exec_flags hn
      rw [hr] at hf
      exact .inl hf
    | some => exact .inr ⟨hn, rfl⟩
  · exact .inl ⟨rfl, rfl⟩

/-- Whether an instruction has a flag result does not depend on the state it starts from. -/
theorem isSome_flagResult_congr (s t : State) (i : Instr) : (flagResult s i).isSome = (flagResult t i).isSome := by
  cases i <;> rfl

/-- A step changes a flag only where it decodes an instruction with a flag result and completes it. -/
theorem step_flags {s t : State} (h : stateAfter (step s) = some t) :
    (t.zf = s.zf ∧ t.sf = s.sf) ∨
      ∃ i c, decode s.fetch s.ip = .ok i c ∧ step s = .next t ∧ (flagResult s i).isSome = true := by
  rcases step_cases s with ⟨-, hs⟩ | ⟨-, -, hs⟩ | ⟨-, -, e, c, -, hs⟩ | ⟨-, -, i, c, hd, hs⟩ <;> rw [hs] at h ⊢
  · obtain rfl := Option.some.inj h
    exact .inl ⟨rfl, rfl⟩
  · obtain rfl := Option.some.inj h
    exact .inl ⟨rfl, rfl⟩
  · obtain rfl := Option.some.inj h
    exact .inl ⟨rfl, rfl⟩
  · refine (stateAfter_exec_flags h).imp_right fun ⟨hn, hr⟩ => ⟨i, c, hd, hn, ?_⟩
    rwa [isSome_flagResult_congr s]

/-- Settles O43: the completed instructions by `exec_flags`, every step by `step_flags`. -/
theorem flagWriters : Obligations.FlagWriters :=
  ⟨fun _ _ _ h => exec_flags h, fun _ _ h => step_flags h⟩

end Sys2Proof.Machine
end

section
/-! OBLIGATION. The flag function (40_cycle.md rule R128). -/

namespace Sys2Proof.Machine

/-- Settles O31: each flag by its own equivalence on numbers; `setFlags` updates no other field. -/
theorem flagsFromTheResult : Obligations.FlagsFromTheResult := by
  intro s w r hr
  have hz : zeroOf r = decide (r.toNat = 0) := Bool.eq_iff_iff.2 ((zeroOf_iff r).trans decide_eq_true_iff.symm)
  have hs : signOf w r = decide (2 ^ (w.bits - 1) ≤ r.toNat) :=
    Bool.eq_iff_iff.2 ((signOf_iff hr).trans decide_eq_true_iff.symm)
  rw [State.setFlags, hz, hs]

end Sys2Proof.Machine
end

section
/-! OBLIGATION. What a branch writes: the instruction pointer at most (43_branch.md rules R171, R172, R178). -/

namespace Sys2Proof.Machine

/-- A completed JNE writes the instruction pointer alone, and writes back the one it found where it is not taken. -/
theorem execJne_eq_setIp {disp : Int} {s t : State} (h : execJne disp s = .next t) : ∃ a, t = s.setIp a := by
  obtain ⟨-, h⟩ := ifWellFormed_next.1 h
  obtain rfl := Host.Outcome.next.inj h
  split
  · exact ⟨s.ip, rfl⟩
  · exact ⟨s.branchTarget disp, rfl⟩

/-- A branch kind that completes writes the instruction pointer alone: JNE is the only one that completes (R172). -/
theorem exec_branch_eq_setIp {k : BranchKind} {disp : Int} {s t : State} (h : exec (k.instr disp) s = .next t) :
    ∃ a, t = s.setIp a := by
  cases k with
  | jne => exact execJne_eq_setIp h
  | jo | jno | jb | jnb | je | jbe | ja | js | jns | jp | jnp | jl | jnl | jle | jg | loopnz | loopz | loop | jcxz =>
    exact absurd h unexecutedBranch_next

/-- Settles O44: a branch that completes writes `ip` alone (`exec_branch_eq_setIp`), one that stops the status alone
(`stateAfter_exec`). -/
theorem branchesWriteNoRegisterOrFlag : Obligations.BranchesWriteNoRegisterOrFlag := by
  intro k disp s t h
  rcases stateAfter_exec h with hn | rfl
  · obtain ⟨a, rfl⟩ := exec_branch_eq_setIp hn
    exact ⟨s.setIp_regs a, s.setIp_zf a, s.setIp_sf a⟩
  · exact ⟨rfl, rfl, rfl⟩

end Sys2Proof.Machine
end

section
/-! SUPPORT. The five families of instructions: every instruction is one of an operation's family, and what the model's
functions over `Instr` give for a family at once (30_encoding.md rules R71 to R91). -/

namespace Sys2Proof

/-- A statement about every instruction, by the five families (30_encoding.md R74, R85, R86, R88, R89). -/
theorem Instr.byFamily {motive : Instr → Prop}
    (rm : ∀ (op : RmOp) d rm reg, motive (op.instr d rm reg))
    (acc : ∀ (op : ArithOp) imm, motive (op.accInstr imm))
    (rmi : ∀ (op : ArithOp) rm imm, motive (op.rmiInstr rm imm))
    (regi : ∀ reg imm, motive (.movRegi reg imm))
    (br : ∀ (k : BranchKind) disp, motive (k.instr disp)) (i : Instr) : motive i := by
  cases i with
  | movRm d o r => exact rm .mov d o r
  | addRm d o r => exact rm (.arith .add) d o r
  | subRm d o r => exact rm (.arith .sub) d o r
  | cmpRm d o r => exact rm (.arith .cmp) d o r
  | addAcc imm => exact acc .add imm
  | subAcc imm => exact acc .sub imm
  | cmpAcc imm => exact acc .cmp imm
  | addRmi o imm => exact rmi .add o imm
  | subRmi o imm => exact rmi .sub o imm
  | cmpRmi o imm => exact rmi .cmp o imm
  | movRegi r imm => exact regi r imm
  | jo k => exact br .jo k
  | jno k => exact br .jno k
  | jb k => exact br .jb k
  | jnb k => exact br .jnb k
  | je k => exact br .je k
  | jne k => exact br .jne k
  | jbe k => exact br .jbe k
  | ja k => exact br .ja k
  | js k => exact br .js k
  | jns k => exact br .jns k
  | jp k => exact br .jp k
  | jnp k => exact br .jnp k
  | jl k => exact br .jl k
  | jnl k => exact br .jnl k
  | jle k => exact br .jle k
  | jg k => exact br .jg k
  | loopnz k => exact br .loopnz k
  | loopz k => exact br .loopz k
  | loop k => exact br .loop k
  | jcxz k => exact br .jcxz k

/-- The opcode bits of a family-RM operation (30_encoding.md R74). -/
def RmOp.opcode : RmOp → BitVec 6
  | .mov => 0b100010#6
  | .arith .add => 0b000000#6
  | .arith .sub => 0b001010#6
  | .arith .cmp => 0b001110#6

/-- The opcode bits of a family-ACC operation (R85). -/
def ArithOp.accOpcode : ArithOp → BitVec 6
  | .add => 0b000001#6
  | .sub => 0b001011#6
  | .cmp => 0b001111#6

/-- The selector of a family-RMI operation (R86). -/
def ArithOp.selector : ArithOp → BitVec 3
  | .add => 0b000#3
  | .sub => 0b101#3
  | .cmp => 0b111#3

/-- The leading byte of a branch kind (R89). -/
def BranchKind.lead : BranchKind → Byte
  | .jo => 0x70#8 | .jno => 0x71#8 | .jb => 0x72#8 | .jnb => 0x73#8 | .je => 0x74#8 | .jne => 0x75#8 | .jbe => 0x76#8
  | .ja => 0x77#8 | .js => 0x78#8 | .jns => 0x79#8 | .jp => 0x7A#8 | .jnp => 0x7B#8 | .jl => 0x7C#8 | .jnl => 0x7D#8
  | .jle => 0x7E#8 | .jg => 0x7F#8 | .loopnz => 0xE0#8 | .loopz => 0xE1#8 | .loop => 0xE2#8 | .jcxz => 0xE3#8

/-- The leading byte of a family; `none` has no leading byte of its own, and 0 stands for it. -/
def Family.lead : Family → Byte
  | .rm op d w => leadingByte op.opcode d.bit w.bit
  | .acc op w => leadingByte op.accOpcode false w.bit
  | .rmi s w => leadingByte 0b100000#6 s w.bit
  | .regi w code => (0b1011#4 ++ BitVec.ofBool w.bit ++ code : BitVec 8)
  | .br k => k.lead
  | .none => 0#8

/-- The leading byte of a family is dispatched to it (R91). -/
theorem dispatch_lead {f : Family} (h : f ≠ .none) : dispatch f.lead = f := by
  cases f with
  | rm op d w => rcases op with _ | _ | _ | _ <;> cases d <;> cases w <;> decide
  | acc op w => cases op <;> cases w <;> decide
  | rmi s w => cases s <;> cases w <;> decide
  | regi w code => revert code; cases w <;> decide
  | br k => cases k <;> decide
  | none => exact absurd rfl h

/-- A mapped leading byte is the one of its family (R91). -/
theorem lead_dispatch {b : Byte} : dispatch b ≠ .none → (dispatch b).lead = b := by
  revert b; decide

/-- The family an instruction is encoded in. -/
def Instr.family : Instr → Family
  | .movRm d _ reg => .rm .mov d reg.width
  | .addRm d _ reg => .rm (.arith .add) d reg.width
  | .subRm d _ reg => .rm (.arith .sub) d reg.width
  | .cmpRm d _ reg => .rm (.arith .cmp) d reg.width
  | .addAcc imm => .acc .add imm.width
  | .subAcc imm => .acc .sub imm.width
  | .cmpAcc imm => .acc .cmp imm.width
  | .addRmi _ imm | .subRmi _ imm | .cmpRmi _ imm => .rmi imm.sBit imm.width
  | .movRegi reg _ => .regi reg.width reg.code
  | .jo _ => .br .jo | .jno _ => .br .jno | .jb _ => .br .jb | .jnb _ => .br .jnb | .je _ => .br .je
  | .jne _ => .br .jne | .jbe _ => .br .jbe | .ja _ => .br .ja | .js _ => .br .js | .jns _ => .br .jns
  | .jp _ => .br .jp | .jnp _ => .br .jnp | .jl _ => .br .jl | .jnl _ => .br .jnl | .jle _ => .br .jle
  | .jg _ => .br .jg | .loopnz _ => .br .loopnz | .loopz _ => .br .loopz | .loop _ => .br .loop
  | .jcxz _ => .br .jcxz

section
variable (op : RmOp) (ar : ArithOp) (k : BranchKind) (d : Dir) (rm : Operand) (reg : RegName) (imm : Imm)
  (v : RmiImm) (disp : Int)

@[simp] theorem RmOp.family_instr : (op.instr d rm reg).family = .rm op d reg.width := by
  rcases op with _ | _ | _ | _ <;> rfl
@[simp] theorem ArithOp.family_accInstr : (ar.accInstr imm).family = .acc ar imm.width := by cases ar <;> rfl
@[simp] theorem ArithOp.family_rmiInstr : (ar.rmiInstr rm v).family = .rmi v.sBit v.width := by cases ar <;> rfl
@[simp] theorem BranchKind.family_instr : (k.instr disp).family = .br k := by cases k <;> rfl

@[simp] theorem RmOp.wellFormed_instr : (op.instr d rm reg).wellFormed = rm.isRm reg.width := by
  rcases op with _ | _ | _ | _ <;> rfl
@[simp] theorem ArithOp.wellFormed_accInstr : (ar.accInstr imm).wellFormed = true := by cases ar <;> rfl
@[simp] theorem ArithOp.wellFormed_rmiInstr : (ar.rmiInstr rm v).wellFormed = rm.isRm v.width := by cases ar <;> rfl
@[simp] theorem BranchKind.wellFormed_instr : (k.instr disp).wellFormed = isSigned8 disp := by cases k <;> rfl

@[simp] theorem RmOp.encode_instr :
    encode (op.instr d rm reg) = leadingByte op.opcode d.bit reg.width.bit :: rm.encodeRm reg.code := by
  rcases op with _ | _ | _ | _ <;> rfl
@[simp] theorem ArithOp.encode_accInstr :
    encode (ar.accInstr imm) = leadingByte ar.accOpcode false imm.width.bit :: imm.encode := by cases ar <;> rfl
@[simp] theorem ArithOp.encode_rmiInstr :
    encode (ar.rmiInstr rm v) = leadingByte 0b100000#6 v.sBit v.width.bit :: (rm.encodeRm ar.selector ++ v.encode) := by
  cases ar <;> rfl
@[simp] theorem BranchKind.encode_instr : encode (k.instr disp) = [k.lead, ofSigned8 disp] := by cases k <;> rfl

@[simp] theorem RmOp.size_instr : (op.instr d rm reg).size = 2 + rm.dispBytes := by
  rcases op with _ | _ | _ | _ <;> rfl
@[simp] theorem ArithOp.size_accInstr : (ar.accInstr imm).size = 1 + imm.bytes := by cases ar <;> rfl
@[simp] theorem ArithOp.size_rmiInstr : (ar.rmiInstr rm v).size = 2 + rm.dispBytes + v.bytes := by cases ar <;> rfl
@[simp] theorem BranchKind.size_instr : (k.instr disp).size = 2 := by cases k <;> rfl

@[simp] theorem BranchKind.decoded_instr (e : SwImmExt) : (k.instr disp).decoded e = .branch k disp 2 := by cases k <;> rfl

end

/-- No instruction is of the family of the unmapped leading bytes. -/
theorem Instr.family_ne_none (i : Instr) : i.family ≠ .none := by cases i <;> nofun

/-- An encoding begins with the leading byte of its family. -/
theorem encode_eq_lead_cons (i : Instr) : encode i = i.family.lead :: (encode i).tail := by
  cases i using Instr.byFamily with
  | rm | acc | rmi | br => simp [Family.lead]
  | regi => rfl

/-- The leading byte of an instruction is dispatched to its family (R91). -/
theorem dispatch_lead_family (i : Instr) : dispatch i.family.lead = i.family := dispatch_lead i.family_ne_none

/-- The selector of an operation chooses it (R86). -/
@[simp] theorem selector_selector (op : ArithOp) : selector op.selector = some op := by cases op <;> rfl

/-- A selector that chooses an operation is the operation's own (R86). -/
theorem selector_eq_some {sel : BitVec 3} {op : ArithOp} : selector sel = some op ↔ sel = op.selector := by
  revert sel; cases op <;> decide

/-- The size of an instruction is the one it is reported with (R84). -/
@[simp] theorem size_decoded (e : SwImmExt) (i : Instr) : (i.decoded e).size = i.size := by cases i <;> rfl

/-- The bytes of a well-formed instruction are as many as its size, 2 to 6 (R71). -/
theorem encodedSize (i : Instr) : Laws.EncodedSize.Statement i := by
  cases i with
  | movRm d rm reg => exact Laws.EncodedSize.movRm d rm reg
  | addRm d rm reg => exact Laws.EncodedSize.addRm d rm reg
  | subRm d rm reg => exact Laws.EncodedSize.subRm d rm reg
  | cmpRm d rm reg => exact Laws.EncodedSize.cmpRm d rm reg
  | movRegi reg imm => exact Laws.EncodedSize.movRegi reg imm
  | addAcc imm => exact Laws.EncodedSize.addAcc imm
  | subAcc imm => exact Laws.EncodedSize.subAcc imm
  | cmpAcc imm => exact Laws.EncodedSize.cmpAcc imm
  | addRmi rm imm => exact Laws.EncodedSize.addRmi rm imm
  | subRmi rm imm => exact Laws.EncodedSize.subRmi rm imm
  | cmpRmi rm imm => exact Laws.EncodedSize.cmpRmi rm imm
  | jo disp | jno disp | jb disp | jnb disp | je disp | jne disp | jbe disp | ja disp | js disp | jns disp | jp disp
  | jnp disp | jl disp | jnl disp | jle disp | jg disp | loopnz disp | loopz disp | loop disp | jcxz disp =>
    exact fun _ => ⟨rfl, Nat.le_refl 2, by simp [Instr.size, Config.maxInstrLen]⟩

end Sys2Proof
end

section
/-! SUPPORT. What the readers of the decoder read: each answers a value exactly where the bytes that encode it stand
(30_encoding.md rules R70, R92). -/

namespace Sys2Proof

/-- The bytes stand in an image from an address on. -/
def HoldsAt (fetch : Nat → Option Byte) (a : Nat) (bs : List Byte) : Prop := ∀ k, k < bs.length → fetch (a + k) = bs[k]?

/-- The cursor after n bytes more. -/
def Cursor.skip (c : Cursor) (n : Nat) : Cursor := ⟨c.pos + n, c.count + n⟩

@[simp] theorem Cursor.skip_pos (c : Cursor) (n : Nat) : (c.skip n).pos = c.pos + n := rfl
@[simp] theorem Cursor.skip_count (c : Cursor) (n : Nat) : (c.skip n).count = c.count + n := rfl
@[simp] theorem Cursor.skip_zero (c : Cursor) : c.skip 0 = c := rfl
@[simp] theorem Cursor.skip_skip (c : Cursor) (m n : Nat) : (c.skip m).skip n = c.skip (m + n) := by
  simp [Cursor.skip, Nat.add_assoc]
theorem Cursor.advance_eq_skip (c : Cursor) : c.advance = c.skip 1 := rfl
theorem Cursor.start_skip (a : Word) (n : Nat) : (Cursor.start a).skip n = ⟨a.toNat + n, n⟩ := by
  simp [Cursor.skip]

section
variable {fetch : Nat → Option Byte} {a : Nat}

@[simp] theorem holdsAt_nil : HoldsAt fetch a [] := fun _ h => absurd h (Nat.not_lt_zero _)

@[simp] theorem holdsAt_cons {b : Byte} {bs : List Byte} :
    HoldsAt fetch a (b :: bs) ↔ fetch a = some b ∧ HoldsAt fetch (a + 1) bs := by
  constructor
  · intro h
    refine ⟨h 0 (Nat.succ_pos _), fun k hk => ?_⟩
    have := h (k + 1) (Nat.succ_lt_succ hk)
    rwa [List.getElem?_cons_succ, ← Nat.add_assoc, Nat.add_right_comm] at this
  · rintro ⟨hb, h⟩ (_ | k) hk
    · exact hb
    · have := h k (Nat.lt_of_succ_lt_succ hk)
      rwa [Nat.add_right_comm, Nat.add_assoc] at this

@[simp] theorem holdsAt_append {bs cs : List Byte} :
    HoldsAt fetch a (bs ++ cs) ↔ HoldsAt fetch a bs ∧ HoldsAt fetch (a + bs.length) cs := by
  induction bs generalizing a with
  | nil => simp
  | cons b bs ih => simp [ih, and_assoc, Nat.add_assoc, Nat.add_comm 1]

/-- The bytes of a stretch of an image are determined. -/
theorem HoldsAt.congr {other : Nat → Option Byte} {bs : List Byte} (h : HoldsAt fetch a bs)
    (heq : ∀ x, a ≤ x → x < a + bs.length → other x = fetch x) : HoldsAt other a bs := by
  intro k hk
  rw [heq (a + k) (Nat.le_add_right a k) (Nat.add_lt_add_left hk a), h k hk]

/-- Every address of a stretch that holds bytes has one. -/
theorem HoldsAt.isSome {bs : List Byte} (h : HoldsAt fetch a bs) {k : Nat} (hk : k < bs.length) :
    (fetch (a + k)).isSome = true := by
  rw [h k hk, List.getElem?_eq_getElem hk, Option.isSome_some]

end

@[simp] theorem length_wordBytes (v : Word) : (wordBytes v).length = 2 := rfl

/-- A value made of what was read. -/
theorem Read.map_eq_ok {α β : Type} {r : Read α} {g : α → β} {b : β} {c : Cursor} :
    (r.andThen fun x c => .ok (g x) c) = .ok b c ↔ ∃ x, r = .ok x c ∧ g x = b := by
  cases r <;> simp [and_comm]

section
variable {fetch : Nat → Option Byte} {c c' : Cursor} {w : Width}

/-- Two bytes are read exactly where the word stands, the low byte first (R92 `read16`). -/
theorem read16_eq_ok {v : Word} :
    read16 fetch c = .ok v c' ↔ HoldsAt fetch c.pos (wordBytes v) ∧ c' = c.skip 2 := by
  simp only [read16, Read.andThen_eq_ok, next_eq_ok, Read.ok.injEq, wordBytes, holdsAt_cons, holdsAt_nil, and_true]
  constructor
  · rintro ⟨lo, _, ⟨hlo, rfl⟩, hi, _, ⟨hhi, rfl⟩, rfl, rfl⟩
    exact ⟨⟨by rwa [lowByte_cat], by rwa [highByte_cat]⟩, rfl⟩
  · rintro ⟨⟨hlo, hhi⟩, rfl⟩
    exact ⟨_, _, ⟨hlo, rfl⟩, _, _, ⟨hhi, rfl⟩, cat_bytes v, rfl⟩

/-- An immediate of the width bit's size is read exactly where its bytes stand (R85, R88). -/
theorem readImm_eq_ok {imm : Imm} :
    readImm fetch w c = .ok imm c' ↔
      imm.width = w ∧ HoldsAt fetch c.pos imm.encode ∧ c' = c.skip imm.encode.length := by
  cases w with
  | byte => cases imm <;> simp [readImm, Read.map_eq_ok, next_eq_ok, Imm.width, Imm.encode, Cursor.advance_eq_skip]
  | word => cases imm <;> simp [readImm, Read.map_eq_ok, read16_eq_ok, Imm.width, Imm.encode, wordBytes]

/-- An immediate of family RMI is read exactly where its bytes stand (R87). -/
theorem readRmiImm_eq_ok {s : Bool} {imm : RmiImm} :
    readRmiImm fetch s w c = .ok imm c' ↔
      imm.sBit = s ∧ imm.width = w ∧ HoldsAt fetch c.pos imm.encode ∧ c' = c.skip imm.encode.length := by
  match w, s with
  | .byte, s =>
    cases imm with
    | byte t v =>
      have hts : s = t ↔ t = s := eq_comm
      simp [readRmiImm, Read.map_eq_ok, next_eq_ok, RmiImm.width, RmiImm.sBit, RmiImm.encode, Cursor.advance_eq_skip, hts,
        and_comm]
    | word | short => simp [readRmiImm, Read.map_eq_ok, RmiImm.width]
  | .word, false =>
    cases imm <;> simp [readRmiImm, Read.map_eq_ok, read16_eq_ok, RmiImm.width, RmiImm.sBit, RmiImm.encode, wordBytes]
  | .word, true =>
    cases imm <;>
      simp [readRmiImm, Read.map_eq_ok, next_eq_ok, RmiImm.width, RmiImm.sBit, RmiImm.encode, Cursor.advance_eq_skip]

/-- A signed byte is the number read from it (R80). -/
theorem ofSigned8_signed8 (b : Byte) : ofSigned8 (signed8 b) = b := BitVec.ofInt_toInt

/-- The one signed displacement byte is read exactly where it stands (R81, R89). -/
theorem next_signed8_eq_ok {α : Type} {g : Int → α} {x : α} :
    ((next fetch c).andThen fun b c => .ok (g (signed8 b)) c) = .ok x c' ↔
      ∃ k, isSigned8 k = true ∧ HoldsAt fetch c.pos [ofSigned8 k] ∧ c' = c.skip 1 ∧ g k = x := by
  simp only [Read.map_eq_ok, next_eq_ok, holdsAt_cons, holdsAt_nil, and_true, Cursor.advance_eq_skip]
  constructor
  · rintro ⟨b, ⟨hb, hc⟩, hx⟩
    exact ⟨signed8 b, isSigned8_signed8 b, by rwa [ofSigned8_signed8], hc, hx⟩
  · rintro ⟨k, hk, hb, hc, hx⟩
    exact ⟨ofSigned8 k, ⟨hb, hc⟩, by rwa [signed8_ofSigned8 hk]⟩

/-! ### The register-or-memory operand (R77, R78, R81) -/

/-- The base lists of the table are those of the rm codes, and the code of each is the one it was chosen by (R78). -/
@[simp] theorem eaCode_eaBases (rm : BitVec 3) : eaCode (eaBases rm) = rm := by revert rm; decide

theorem eaBases_mem (rm : BitVec 3) : eaBases rm ∈ baseLists := by revert rm; decide

theorem eaBases_eaCode {bases : List RegName} (h : bases ∈ baseLists) : eaBases (eaCode bases) = bases := by
  revert bases; decide

theorem eaBases_ne_nil (rm : BitVec 3) : eaBases rm ≠ [] := by revert rm; decide

/-- `[BP]` is the base list of code 110, which reads as a direct address without a displacement (R78, R79). -/
theorem eaBases_eq_bp {rm : BitVec 3} : eaBases rm = [.bp] ↔ rm = 0b110#3 := by revert rm; decide

/-- The last of the four mod codes (R77). -/
theorem eq_two_of_ne {md : BitVec 2} : md ≠ 0b00#2 → md ≠ 0b01#2 → md ≠ 0b11#2 → md = 0b10#2 := by revert md; decide

/-- What `decode_rm` reads is an operand of the width that mod and rm encode, and its displacement stood there. -/
theorem decodeRm_ok {md : BitVec 2} {rm : BitVec 3} {o : Operand} (h : decodeRm fetch md rm w c = .ok o c') :
    o.isRm w = true ∧ o.modCode = md ∧ o.rmCode = rm ∧
      HoldsAt fetch c.pos o.dispEncode ∧ c' = c.skip o.dispEncode.length := by
  have hmem := eaBases_mem rm
  unfold decodeRm at h
  split at h
  · next hmd =>
    obtain ⟨rfl, rfl⟩ := Read.ok.inj h
    simp [Operand.isRm, Operand.modCode, Operand.rmCode, Operand.dispEncode, hmd]
  split at h
  · next hd =>
    obtain ⟨v, hread, rfl⟩ := Read.map_eq_ok.1 h
    obtain ⟨hv, rfl⟩ := read16_eq_ok.1 hread
    exact ⟨rfl, hd.1.symm, hd.2.symm, hv, rfl⟩
  split at h
  · next hd hmd =>
    obtain ⟨rfl, rfl⟩ := Read.ok.inj h
    have hrm : rm ≠ 0b110#3 := fun hrm => hd ⟨hmd, hrm⟩
    simp [Operand.isRm, memWellFormed, Operand.modCode, Operand.rmCode, Operand.dispEncode, Disp.encode, hmd, hmem,
      eaBases_eq_bp, hrm]
  split at h
  · next hmd =>
    obtain ⟨k, hk, hb, rfl, rfl⟩ := next_signed8_eq_ok (g := fun k => Operand.mem (eaBases rm) (.d8 k)).1 h
    exact ⟨by simp [Operand.isRm, memWellFormed, hmem, hk], hmd.symm, eaCode_eaBases rm, hb, rfl⟩
  · next h3 _ h0 h1 =>
    obtain ⟨v, hread, rfl⟩ := Read.map_eq_ok.1 h
    obtain ⟨hv, rfl⟩ := read16_eq_ok.1 hread
    refine ⟨by simp [Operand.isRm, memWellFormed, hmem], ?_, eaCode_eaBases rm, hv, rfl⟩
    rw [eq_two_of_ne h0 h1 h3, Operand.modCode, if_neg (eaBases_ne_nil rm)]

/-- Where the displacement of an operand stands, `decode_rm` reads the operand from its own mod and rm. -/
theorem decodeRm_of {o : Operand} (hw : o.isRm w = true) (h : HoldsAt fetch c.pos o.dispEncode) :
    decodeRm fetch o.modCode o.rmCode w c = .ok o (c.skip o.dispEncode.length) := by
  cases o with
  | reg n =>
    obtain rfl : n.width = w := by simpa [Operand.isRm] using hw
    simp [decodeRm, Operand.modCode, Operand.rmCode, Operand.dispEncode]
  | imm8 | imm16 => exact nomatch hw
  | mem bases disp =>
    cases disp with
    | none =>
      obtain ⟨hmem, hbp⟩ : bases ∈ baseLists ∧ bases ≠ [.bp] := by simpa [Operand.isRm, memWellFormed] using hw
      have hea := eaBases_eaCode hmem
      have hrm : eaCode bases ≠ 0b110#3 := fun hrm => hbp (by rw [← hea, hrm]; rfl)
      simp [decodeRm, Operand.modCode, Operand.rmCode, Operand.dispEncode, Disp.encode, hea, hrm]
    | d8 k =>
      obtain ⟨hmem, hk⟩ : bases ∈ baseLists ∧ isSigned8 k = true := by simpa [Operand.isRm, memWellFormed] using hw
      have hea := eaBases_eaCode hmem
      exact next_signed8_eq_ok (g := fun k => Operand.mem (eaBases (eaCode bases)) (.d8 k)).2
        ⟨k, hk, h, rfl, by rw [hea]⟩
    | d16 v =>
      have hv := (read16_eq_ok (v := v)).2 ⟨h, rfl⟩
      by_cases hb : bases = []
      · simp [decodeRm, Operand.modCode, Operand.rmCode, eaCode, Operand.dispEncode, Disp.encode, hv, hb]
      · have hea : eaBases (eaCode bases) = bases :=
          eaBases_eaCode (by simpa [Operand.isRm, memWellFormed, hb] using hw)
        simp [decodeRm, Operand.modCode, Operand.rmCode, Operand.dispEncode, Disp.encode, hv, hb, hea]

end

end Sys2Proof
end

section
/-! OBLIGATION. The decoder and the encoder are inverse to each other (30_encoding.md rules R70 to R92, R97). -/

namespace Sys2Proof

section
variable {fetch : Nat → Option Byte} {a : Word} {b0 : Byte} {c c' : Cursor} {i : Instr}

/-- An addressing byte is made of its fields (R75). -/
theorem addressingByte_fields (m : Byte) : addressingByte (modField m) (regField m) (rmField m) = m := by
  revert m; decide

@[simp] theorem Operand.length_encodeRm (rm : Operand) (mid : BitVec 3) :
    (rm.encodeRm mid).length = 1 + rm.dispEncode.length := Nat.add_comm _ _

/-- The addressing byte and the operand after it, read from the bytes that encode the operand. -/
theorem readRm_of {w : Width} {rm : Operand} {mid : BitVec 3} (hw : rm.isRm w = true)
    (h : HoldsAt fetch c.pos (rm.encodeRm mid)) :
    next fetch c = .ok (addressingByte rm.modCode mid rm.rmCode) (c.skip 1) ∧
      decodeRm fetch rm.modCode rm.rmCode w (c.skip 1) = .ok rm (c.skip (rm.encodeRm mid).length) := by
  rw [Operand.encodeRm, holdsAt_cons] at h
  refine ⟨next_of_some h.1, ?_⟩
  rw [decodeRm_of (c := c.skip 1) hw h.2, Cursor.skip_skip, Operand.length_encodeRm]

/-- An operand read after its addressing byte: the bytes that encode it stood there. -/
theorem readRm_ok {w : Width} {rm : Operand} {m : Byte} (hm : fetch c.pos = some m)
    (h : decodeRm fetch (modField m) (rmField m) w (c.skip 1) = .ok rm c') :
    rm.isRm w = true ∧ HoldsAt fetch c.pos (rm.encodeRm (regField m)) ∧
      c' = c.skip (rm.encodeRm (regField m)).length := by
  obtain ⟨hw, hmod, hcode, hdisp, rfl⟩ := decodeRm_ok h
  refine ⟨hw, ?_, by rw [Cursor.skip_skip, Operand.length_encodeRm]⟩
  rw [Operand.encodeRm, hmod, hcode, addressingByte_fields, holdsAt_cons]
  exact ⟨hm, hdisp⟩

/-- After the leading byte of its family, a well-formed instruction is read from the rest of its bytes. -/
theorem decodeFamily_of (hw : i.wellFormed = true) (h : HoldsAt fetch c.pos (encode i).tail) :
    decodeFamily fetch a b0 c i.family = .ok i (c.skip (encode i).tail.length) := by
  cases i using Instr.byFamily with
  | rm op d rm reg =>
    rw [RmOp.wellFormed_instr] at hw
    rw [RmOp.encode_instr, List.tail_cons] at h
    obtain ⟨hbyte, hrm⟩ := readRm_of hw h
    simp [decodeFamily, hbyte, hrm]
  | acc op imm =>
    rw [ArithOp.encode_accInstr, List.tail_cons] at h
    simp [decodeFamily, readImm_eq_ok.2 ⟨rfl, h, rfl⟩]
  | rmi op rm imm =>
    rw [ArithOp.wellFormed_rmiInstr] at hw
    rw [ArithOp.encode_rmiInstr, List.tail_cons, holdsAt_append] at h
    obtain ⟨hbyte, hrm⟩ := readRm_of hw h.1
    have himm := readRmiImm_eq_ok (c := c.skip (rm.encodeRm op.selector).length).2 ⟨rfl, rfl, h.2, rfl⟩
    simp only [Operand.length_encodeRm] at hrm himm
    simp [decodeFamily, hbyte, hrm, himm]
  | regi reg imm =>
    have hwidth : imm.width = reg.width := by simpa [Instr.wellFormed] using hw
    simp [decodeFamily, Instr.family, readImm_eq_ok.2 ⟨hwidth, h, rfl⟩, encode, encodeRegiForm]
  | br k disp =>
    simp only [BranchKind.wellFormed_instr] at hw
    simp only [BranchKind.encode_instr, List.tail_cons] at h ⊢
    simpa [decodeFamily] using next_signed8_eq_ok (g := k.instr).2 ⟨disp, hw, h, rfl, rfl⟩

/-- Whatever is read after a leading byte is a well-formed instruction of the family, and the rest of its bytes stood there. -/
theorem decodeFamily_ok {f : Family} (h : decodeFamily fetch a b0 c f = .ok i c') :
    i.wellFormed = true ∧ i.family = f ∧ HoldsAt fetch c.pos (encode i).tail ∧ c' = c.skip (encode i).tail.length := by
  cases f with
  | rm op d w =>
    simp only [decodeFamily, Read.andThen_eq_ok, next_eq_ok, Cursor.advance_eq_skip, Read.ok.injEq] at h
    obtain ⟨m, _, ⟨hm, rfl⟩, rm, _, hrm, rfl, rfl⟩ := h
    obtain ⟨hw, hb, rfl⟩ := readRm_ok hm hrm
    simp [hw, hb]
  | acc op w =>
    obtain ⟨imm, himm, rfl⟩ := Read.map_eq_ok.1 h
    obtain ⟨rfl, hb, rfl⟩ := readImm_eq_ok.1 himm
    simp [hb]
  | rmi s w =>
    simp only [decodeFamily, Read.andThen_eq_ok, next_eq_ok, Cursor.advance_eq_skip] at h
    obtain ⟨m, _, ⟨hm, rfl⟩, h⟩ := h
    split at h
    · exact nomatch h
    · next op hop =>
      rw [selector_eq_some] at hop
      simp only [Read.andThen_eq_ok, Read.ok.injEq] at h
      obtain ⟨rm, _, hrm, imm, _, himm, rfl, rfl⟩ := h
      obtain ⟨hw, hb, rfl⟩ := readRm_ok hm hrm
      obtain ⟨rfl, rfl, hi, rfl⟩ := readRmiImm_eq_ok.1 himm
      rw [hop] at hb hi ⊢
      rw [Cursor.skip_pos] at hi
      refine ⟨by simp [hw], by simp, ?_, by simp⟩
      rw [ArithOp.encode_rmiInstr, List.tail_cons, holdsAt_append]
      exact ⟨hb, hi⟩
  | regi w code =>
    obtain ⟨imm, himm, rfl⟩ := Read.map_eq_ok.1 h
    obtain ⟨rfl, hb, rfl⟩ := readImm_eq_ok.1 himm
    simp [Instr.wellFormed, Instr.family, encode, encodeRegiForm, hb]
  | br k =>
    obtain ⟨disp, hd, hb, rfl, rfl⟩ := next_signed8_eq_ok (g := k.instr).1 h
    simp only [BranchKind.encode_instr, List.tail_cons]
    exact ⟨by simp [hd], by simp, hb, rfl⟩
  | none => exact nomatch h

/-- The decode answers an instruction exactly where the bytes of a well-formed instruction stand, and counts them. -/
theorem decode_eq_ok :
    decode fetch a = .ok i c ↔
      i.wellFormed = true ∧ HoldsAt fetch a.toNat (encode i) ∧ c = ⟨a.toNat + i.size, i.size⟩ := by
  have hlen (hw : i.wellFormed = true) : 1 + (encode i).tail.length = i.size := by
    rw [← (encodedSize i hw).1, encode_eq_lead_cons, List.length_cons, List.tail_cons, Nat.add_comm]
  constructor
  · intro h
    simp only [decode, Read.andThen_eq_ok, next_eq_ok, Cursor.advance_eq_skip] at h
    obtain ⟨b0, _, ⟨hb, rfl⟩, h⟩ := h
    obtain ⟨hw, hf, hrest, rfl⟩ := decodeFamily_ok h
    have hlead : i.family.lead = b0 := by rw [hf]; exact lead_dispatch (hf ▸ i.family_ne_none)
    refine ⟨hw, ?_, ?_⟩
    · rw [encode_eq_lead_cons, holdsAt_cons, hlead]
      exact ⟨hb, hrest⟩
    · rw [Cursor.skip_skip, hlen hw, Cursor.start_skip]
  · rintro ⟨hw, h, rfl⟩
    rw [encode_eq_lead_cons, holdsAt_cons] at h
    rw [decode, next_of_some (c := Cursor.start a) h.1, Read.andThen_ok, dispatch_lead_family, Cursor.advance_eq_skip,
      decodeFamily_of (c := (Cursor.start a).skip 1) hw h.2, Cursor.skip_skip, hlen hw, Cursor.start_skip]

end

/-- Settles O3: the direction of `decode_eq_ok` from the bytes to the instruction. -/
theorem decodeInvertsEncode : Obligations.DecodeInvertsEncode :=
  fun _ _ _ hw h => decode_eq_ok.2 ⟨hw, h, rfl⟩

/-- Settles O4: the direction of `decode_eq_ok` from the instruction to the bytes. -/
theorem encodeInvertsDecode : Obligations.EncodeInvertsDecode := by
  intro fetch a i c h
  obtain ⟨hw, hb, hc⟩ := decode_eq_ok.1 h
  have hlen := (encodedSize i hw).1
  exact ⟨hw, hc, hlen, fun k hk => hb k (hlen ▸ hk)⟩

/-- Settles O5: the other image holds the same encoding. -/
theorem decodeReadsOnlyItsBytes : Obligations.DecodeReadsOnlyItsBytes := by
  intro fetch other a i c h hsame
  obtain ⟨hw, hb, rfl⟩ := decode_eq_ok.1 h
  refine decode_eq_ok.2 ⟨hw, hb.congr ?_, rfl⟩
  rwa [(encodedSize i hw).1]

end Sys2Proof
end

section
/-! SUPPORT. Where a reading stops: how many bytes it consumes, and which error it ends in (30_encoding.md rules R70, R92, R94;
60_exceptions.md rules R201, R202). -/

namespace Sys2Proof

/-- A reading from a cursor consumes at most n bytes, each of which stands in the image, and ends in EndOfInstructionStream only
where no byte stands. -/
def Within {α : Type} (fetch : Nat → Option Byte) (c : Cursor) (n : Nat) (r : Read α) : Prop :=
  (∃ k ≤ n, r.cursor = c.skip k ∧ ∀ j < k, (fetch (c.pos + j)).isSome = true) ∧
    ∀ c', r = .err .endOfInstructionStream c' → fetch c'.pos = none

/-- A reading ends in no other error than EndOfInstructionStream. -/
def EndsOnly {α : Type} (r : Read α) : Prop := ∀ e c, r = .err e c → e = .endOfInstructionStream

section
variable {α β : Type} {fetch : Nat → Option Byte} {c : Cursor} {m n : Nat} {r : Read α} {k : α → Cursor → Read β}

theorem within_ok {x : α} : Within fetch c n (.ok x c) :=
  ⟨⟨0, Nat.zero_le _, rfl, nofun⟩, nofun⟩

theorem within_unknown {b : Byte} {a : Word} : Within fetch c n (.err (.unknownInstruction b a) c : Read α) :=
  ⟨⟨0, Nat.zero_le _, rfl, nofun⟩, nofun⟩

theorem within_next : Within fetch c 1 (next fetch c) := by
  cases h : fetch c.pos with
  | none =>
    rw [next_of_none h]
    exact ⟨⟨0, Nat.zero_le _, rfl, nofun⟩, fun c' hc => (Read.err.inj hc).2 ▸ h⟩
  | some b =>
    rw [next_of_some h]
    refine ⟨⟨1, Nat.le_refl _, rfl, fun j hj => ?_⟩, nofun⟩
    obtain rfl := Nat.lt_one_iff.1 hj
    exact Option.isSome_of_mem h

/-- Two readings, one after the other, consume the bytes of both. -/
theorem Within.andThen (hr : Within fetch c m r) (hk : ∀ x c', Within fetch c' n (k x c')) :
    Within fetch c (m + n) (r.andThen k) := by
  obtain ⟨⟨p, hp, hcur, hsome⟩, hend⟩ := hr
  cases r with
  | err e c' => exact ⟨⟨p, by omega, hcur, hsome⟩, fun c'' h => hend c'' (by cases h; rfl)⟩
  | ok x c' =>
    obtain rfl : c' = c.skip p := hcur
    obtain ⟨⟨q, hq, hcur', hsome'⟩, hend'⟩ := hk x (c.skip p)
    refine ⟨⟨p + q, by omega, by simpa using hcur', fun j hj => ?_⟩, hend'⟩
    rcases Nat.lt_or_ge j p with hjp | hjp
    · exact hsome j hjp
    · have h := hsome' (j - p) (by omega)
      rwa [Cursor.skip_pos, Nat.add_assoc, Nat.add_sub_cancel' hjp] at h

theorem endsOnly_ok {x : α} : EndsOnly (.ok x c) := nofun

theorem endsOnly_next : EndsOnly (next fetch c) := fun _ _ h => (next_eq_err.1 h).2.1

theorem EndsOnly.andThen (hr : EndsOnly r) (hk : ∀ x c', EndsOnly (k x c')) : EndsOnly (r.andThen k) := by
  intro e c' h
  rcases Read.andThen_eq_err.1 h with h | ⟨x, c'', -, h⟩
  · exact hr e c' h
  · exact hk x c'' e c' h

end

section
variable {fetch : Nat → Option Byte} {c : Cursor} {w : Width}

theorem within_read16 : Within fetch c 2 (read16 fetch c) :=
  within_next.andThen fun _ _ => within_next.andThen fun _ _ => within_ok (n := 0)

theorem endsOnly_read16 : EndsOnly (read16 fetch c) :=
  endsOnly_next.andThen fun _ _ => endsOnly_next.andThen fun _ _ => endsOnly_ok

theorem within_decodeRm {md : BitVec 2} {rm : BitVec 3} : Within fetch c 2 (decodeRm fetch md rm w c) := by
  unfold decodeRm
  split_ifs
  · exact within_ok
  · exact within_read16.andThen fun _ _ => within_ok (n := 0)
  · exact within_ok
  · exact within_next.andThen fun _ _ => within_ok (n := 1)
  · exact within_read16.andThen fun _ _ => within_ok (n := 0)

theorem endsOnly_decodeRm {md : BitVec 2} {rm : BitVec 3} : EndsOnly (decodeRm fetch md rm w c) := by
  unfold decodeRm
  split_ifs
  · exact endsOnly_ok
  · exact endsOnly_read16.andThen fun _ _ => endsOnly_ok
  · exact endsOnly_ok
  · exact endsOnly_next.andThen fun _ _ => endsOnly_ok
  · exact endsOnly_read16.andThen fun _ _ => endsOnly_ok

theorem within_readImm : Within fetch c 2 (readImm fetch w c) := by
  cases w with
  | byte => exact within_next.andThen fun _ _ => within_ok (n := 1)
  | word => exact within_read16.andThen fun _ _ => within_ok (n := 0)

theorem endsOnly_readImm : EndsOnly (readImm fetch w c) := by
  cases w with
  | byte => exact endsOnly_next.andThen fun _ _ => endsOnly_ok
  | word => exact endsOnly_read16.andThen fun _ _ => endsOnly_ok

theorem within_readRmiImm {s : Bool} : Within fetch c 2 (readRmiImm fetch s w c) := by
  match w, s with
  | .byte, _ => exact within_next.andThen fun _ _ => within_ok (n := 1)
  | .word, false => exact within_read16.andThen fun _ _ => within_ok (n := 0)
  | .word, true => exact within_next.andThen fun _ _ => within_ok (n := 1)

theorem endsOnly_readRmiImm {s : Bool} : EndsOnly (readRmiImm fetch s w c) := by
  match w, s with
  | .byte, _ => exact endsOnly_next.andThen fun _ _ => endsOnly_ok
  | .word, false => exact endsOnly_read16.andThen fun _ _ => endsOnly_ok
  | .word, true => exact endsOnly_next.andThen fun _ _ => endsOnly_ok

/-- After the leading byte at most five bytes are read. -/
theorem within_decodeFamily {a : Word} {b0 : Byte} (f : Family) : Within fetch c 5 (decodeFamily fetch a b0 c f) := by
  cases f with
  | rm op d w =>
    exact within_next.andThen (n := 4) fun _ _ =>
      within_decodeRm.andThen (n := 2) fun _ _ => within_ok
  | acc op w => exact within_readImm.andThen (n := 3) fun _ _ => within_ok
  | rmi s w =>
    refine within_next.andThen (n := 4) fun m c' => ?_
    split
    · exact within_unknown
    · exact within_decodeRm.andThen (n := 2) fun _ _ => within_readRmiImm.andThen fun _ _ => within_ok (n := 0)
  | regi w code => exact within_readImm.andThen (n := 3) fun _ _ => within_ok
  | br k => exact within_next.andThen (n := 4) fun _ _ => within_ok
  | none => exact within_unknown

/-- A decode reads at most six bytes, whether it answers an instruction or an error (00_scope.md R7). -/
theorem within_decode (fetch : Nat → Option Byte) (a : Word) :
    Within fetch (Cursor.start a) Config.maxInstrLen (decode fetch a) :=
  within_next.andThen fun _ _ => within_decodeFamily _

/-- UnknownInstruction is raised for no family, and for an addressing byte with an invalid selector (R93, R94). -/
theorem decodeFamily_unknown {a address : Word} {b0 b : Byte} {f : Family} :
    (∃ c', decodeFamily fetch a b0 c f = .err (.unknownInstruction b address) c') ↔
      (b0 = b ∧ a = address) ∧
        (f = .none ∨ ∃ s w m, f = .rmi s w ∧ fetch c.pos = some m ∧ selector (regField m) = none) := by
  have hends {r : Read Instr} (h : EndsOnly r) : ¬∃ c', r = .err (.unknownInstruction b address) c' :=
    fun ⟨c', hr⟩ => nomatch h _ c' hr
  cases f with
  | rm op d w =>
    simpa [decodeFamily] using
      hends (endsOnly_next.andThen fun _ _ => endsOnly_decodeRm.andThen fun _ _ => endsOnly_ok)
  | acc op w => simpa [decodeFamily] using hends (endsOnly_readImm.andThen fun _ _ => endsOnly_ok)
  | regi w code => simpa [decodeFamily] using hends (endsOnly_readImm.andThen fun _ _ => endsOnly_ok)
  | br k => simpa [decodeFamily] using hends (endsOnly_next.andThen fun _ _ => endsOnly_ok)
  | none => simp [decodeFamily]
  | rmi s w =>
    cases hm : fetch c.pos with
    | none => simp [decodeFamily, next_of_none hm]
    | some m =>
      cases hsel : selector (regField m) with
      | none => simp [decodeFamily, next_of_some hm, hsel]
      | some op =>
        simpa [decodeFamily, next_of_some hm, hsel] using
          hends (endsOnly_decodeRm.andThen fun _ _ => endsOnly_readRmiImm.andThen fun _ _ => endsOnly_ok)

end

end Sys2Proof
end

section
/-! OBLIGATION. What else a decode does: its size, its errors, and the dispatch of the leading byte (30_encoding.md rules R71, R77,
R87, R91 to R94; 60_exceptions.md rules R201, R202). -/

namespace Sys2Proof

/-- The leading bytes 80 to 83 are those of family RMI (30_encoding.md R86). -/
theorem dispatch_eq_rmi {b : Byte} : (∃ s w, dispatch b = .rmi s w) ↔ 0x80 ≤ b.toNat ∧ b.toNat ≤ 0x83 := by
  have hlead : ∀ s w, 0x80 ≤ (Family.rmi s w).lead.toNat ∧ (Family.rmi s w).lead.toNat ≤ 0x83 := by
    intro s w; cases s <;> cases w <;> decide
  constructor
  · rintro ⟨s, w, h⟩
    have hb : (dispatch b).lead = b := lead_dispatch (by simp [h])
    have hrange := hlead s w
    rwa [← h, hb] at hrange
  · have h : ∀ b : Byte, 0x80 ≤ b.toNat → b.toNat ≤ 0x83 → dispatch b = .rmi (b.getLsbD 1) (widthOf b) := by decide
    exact fun hb => ⟨_, _, h b hb.1 hb.2⟩

/-- The invalid selectors (R94). -/
theorem selector_eq_none {sel : BitVec 3} : selector sel = none ↔ sel ∈ [1#3, 2#3, 3#3, 4#3, 6#3] := by
  revert sel; decide

/-- Settles O7: `decodeFamily_unknown` after the leading byte, whose own reading raises no UnknownInstruction. -/
theorem unknownInstructionExactly : Obligations.UnknownInstructionExactly := by
  intro fetch a address b
  cases hb : fetch a.toNat with
  | none => simp [decode, next_of_none (c := Cursor.start a) hb]
  | some b0 =>
    rw [decode, next_of_some (c := Cursor.start a) hb, Read.andThen_ok, decodeFamily_unknown]
    simp only [Option.some.injEq, ← selector_eq_none, ← and_assoc (b := b.toNat ≤ 131), ← dispatch_eq_rmi]
    constructor
    · rintro ⟨⟨rfl, rfl⟩, h | ⟨s, w, m, h, hm, hsel⟩⟩
      · exact ⟨rfl, rfl, .inl h⟩
      · exact ⟨rfl, rfl, .inr ⟨⟨s, w, h⟩, m, hm, hsel⟩⟩
    · rintro ⟨rfl, rfl, h | ⟨⟨s, w, h⟩, m, hm, hsel⟩⟩
      · exact ⟨⟨rfl, rfl⟩, .inl h⟩
      · exact ⟨⟨rfl, rfl⟩, .inr ⟨s, w, m, h, hm, hsel⟩⟩

/-- The bytes that stand without a gap from an address on stand in the other image too. -/
def Extends (fetch other : Nat → Option Byte) (a : Nat) : Prop :=
  ∀ k y, (∀ j < k, (fetch (a + j)).isSome = true) → fetch (a + k) = some y → other (a + k) = some y

section
variable {fetch other : Nat → Option Byte} {a address : Word} {b : Byte} {c : Cursor} {i : Instr}

theorem HoldsAt.extend {x : Nat} {bs : List Byte} (h : HoldsAt fetch x bs) (hext : Extends fetch other x) :
    HoldsAt other x bs := by
  intro k hk
  have hy := List.getElem?_eq_getElem hk
  rw [hy]
  exact hext k _ (fun j hj => h.isSome (hj.trans hk)) ((h k hk).trans hy)

/-- An instruction decoded from an image is decoded from one that has more bytes. -/
theorem decode_ok_extend (h : decode fetch a = .ok i c) (hext : Extends fetch other a.toNat) :
    decode other a = .ok i c := by
  obtain ⟨hw, hb, hc⟩ := decode_eq_ok.1 h
  exact decode_eq_ok.2 ⟨hw, hb.extend hext, hc⟩

/-- UnknownInstruction is raised for one or two bytes, and more bytes after them leave it. -/
theorem decode_unknown_extend (h : decode fetch a = .err (.unknownInstruction b address) c)
    (hext : Extends fetch other a.toNat) : ∃ c', decode other a = .err (.unknownInstruction b address) c' := by
  obtain ⟨haddr, hb, hcause⟩ := (unknownInstructionExactly fetch a address b).1 ⟨c, h⟩
  refine (unknownInstructionExactly other a address b).2 ⟨haddr, hext 0 b nofun hb, hcause.imp_right ?_⟩
  rintro ⟨hlo, hhi, m, hm, hsel⟩
  refine ⟨hlo, hhi, m, hext 1 m (fun j hj => ?_) hm, hsel⟩
  obtain rfl := Nat.lt_one_iff.1 hj
  exact Option.isSome_of_mem hb

end

/-- An image that holds these bytes from an address on and nothing after them. -/
def laidAt (a : Nat) (bs : List Byte) (x : Nat) : Option Byte := bs[x - a]?

theorem laidAt_add (a : Nat) (bs : List Byte) (k : Nat) : laidAt a bs (a + k) = bs[k]? := by simp [laidAt]

/-- Settles O8: in the image that holds all its bytes the instruction decodes, so the cut image gives neither another instruction
nor UnknownInstruction; and EndOfInstructionStream stops at the first byte that is missing. -/
theorem truncatedInstructionIsEndOfStream : Obligations.TruncatedInstructionIsEndOfStream := by
  intro i fetch a n hw hn hbytes hend
  have hlen := (encodedSize i hw).1
  have hfull : decode (laidAt a.toNat (encode i)) a = .ok i ⟨a.toNat + i.size, i.size⟩ :=
    decode_eq_ok.2 ⟨hw, fun k _ => laidAt_add .., rfl⟩
  have hsome : ∀ k < n, (fetch (a.toNat + k)).isSome = true := fun k hk => by
    rw [hbytes k hk, List.getElem?_eq_getElem (hlen ▸ hk.trans hn), Option.isSome_some]
  have hgap : ∀ k, (∀ j < k, (fetch (a.toNat + j)).isSome = true) → k ≤ n := fun k hk => by
    by_contra hnk
    exact absurd (hk n (Nat.lt_of_not_le hnk)) (by simp [hend])
  have hext : Extends fetch (laidAt a.toNat (encode i)) a.toNat := fun k y hk hy => by
    rcases Nat.lt_or_eq_of_le (hgap k hk) with hkn | rfl
    · rw [laidAt_add, ← hbytes k hkn, hy]
    · exact nomatch hend.symm.trans hy
  cases hd : decode fetch a with
  | ok j c =>
    obtain ⟨rfl, -⟩ := Read.ok.inj ((decode_ok_extend hd hext).symm.trans hfull)
    obtain ⟨-, hb, -⟩ := decode_eq_ok.1 hd
    exact absurd (hb.isSome (hlen ▸ hn)) (by simp [hend])
  | err e c =>
    cases e with
    | unknownInstruction b address =>
      obtain ⟨c', hc'⟩ := decode_unknown_extend hd hext
      exact nomatch hc'.symm.trans hfull
    | endOfInstructionStream =>
      obtain ⟨⟨k, -, hcur, hk⟩, hnone⟩ := within_decode fetch a
      rw [hd] at hcur hnone
      obtain rfl : c = (Cursor.start a).skip k := hcur
      obtain rfl : k = n := by
        refine Nat.le_antisymm (hgap k hk) (Nat.le_of_not_lt fun hkn => ?_)
        have hk0 : fetch (a.toNat + k) = none := hnone _ rfl
        exact absurd (hsome k hkn) (by simp [hk0])
      rw [Cursor.start_skip]

/-- The displacement bytes that the fields of an addressing byte call for (R77). -/
def fieldDispBytes (md : BitVec 2) (rm : BitVec 3) : Nat :=
  if md = 0b11#2 then 0 else if md = 0b10#2 then 2 else if md = 0b01#2 then 1 else if rm = 0b110#3 then 2 else 0

/-- The displacement bytes of an operand are those its own mod and rm call for (R77). -/
theorem fieldDispBytes_codes {w : Width} {o : Operand} (h : o.isRm w = true) :
    fieldDispBytes o.modCode o.rmCode = o.dispBytes := by
  cases o with
  | reg n => rfl
  | imm8 | imm16 => exact nomatch h
  | mem bases disp =>
    cases disp with
    | none =>
      have hbases : ∀ bases ∈ baseLists, bases ≠ [.bp] → eaCode bases ≠ 0b110#3 := by decide
      obtain ⟨hmem, hbp⟩ : bases ∈ baseLists ∧ bases ≠ [.bp] := by simpa [Operand.isRm, memWellFormed] using h
      simp [fieldDispBytes, Operand.modCode, Operand.rmCode, Operand.dispBytes, hbases bases hmem hbp]
    | d8 k => rfl
    | d16 v =>
      by_cases hb : bases = []
      · subst hb; rfl
      · simp [fieldDispBytes, Operand.modCode, Operand.dispBytes, hb]

/-- The size of a leading byte with an immediate by its width (R85, R88). -/
theorem Imm.one_add_bytes (imm : Imm) : 1 + imm.bytes = if imm.width = .byte then 2 else 3 := by cases imm <;> rfl

/-- The bytes of a family-RMI immediate by its width and s bit (R87). -/
theorem RmiImm.bytes_eq (imm : RmiImm) :
    imm.bytes = if imm.width = .byte then 1 else if imm.sBit = false then 2 else 1 := by cases imm <;> rfl

/-- Settles O6: the counted size is the instruction's own, and the two bytes are those of its encoding. -/
theorem decodedSizeByFamily : Obligations.DecodedSizeByFamily := by
  intro fetch a i c h
  obtain ⟨hw, hb, rfl⟩ := decode_eq_ok.1 h
  obtain ⟨hlen, htwo, -⟩ := encodedSize i hw
  have hlead : fetch a.toNat = some i.family.lead := by
    rw [encode_eq_lead_cons, holdsAt_cons] at hb; exact hb.1
  have hsecond := hb 1 (hlen ▸ htwo)
  rw [List.getElem?_eq_getElem (hlen ▸ htwo)] at hsecond
  refine ⟨_, _, hlead, hsecond, ?_⟩
  rw [dispatch_lead_family]
  show i.size = _
  cases i using Instr.byFamily with
  | rm op d rm reg =>
    have hdisp := fieldDispBytes_codes (by simpa using hw)
    simp [Operand.encodeRm, ← hdisp, fieldDispBytes]
  | acc op imm => simp [Imm.one_add_bytes]
  | rmi op rm imm =>
    have hdisp := fieldDispBytes_codes (by simpa using hw)
    simp [Operand.encodeRm, RmiImm.bytes_eq, ← hdisp, fieldDispBytes]
  | regi reg imm =>
    have hwidth : imm.width = reg.width := by simpa [Instr.wellFormed] using hw
    simp [Instr.size, Instr.family, Imm.one_add_bytes, hwidth]
  | br k disp => simp

end Sys2Proof
end

section
/-! OBLIGATION. The one immediate byte of the w = 1, s = 1 form (30_encoding.md rule R87). -/

namespace Sys2Proof.Machine

/-- The extended byte is what the short immediate stands for, under either value of SW_IMM_EXT (R87; D9). -/
theorem isShortImmediate_extend (s : State) (b : Byte) : isShortImmediate s b (s.swImmExt.extend b) := by
  have hb := b.isLt
  have hzero : (zext16 b).toNat = b.toNat := by simp [zext16]; omega
  have hsign : (sext16 b).toInt = b.toInt := BitVec.toInt_signExtend_of_le (by decide)
  unfold isShortImmediate
  cases s.swImmExt with
  | zero => exact ⟨fun _ => hzero, nofun, fun _ => hzero⟩
  | sign =>
    refine ⟨nofun, fun _ => hsign, fun hlt => ?_⟩
    show (sext16 b).toNat = b.toNat
    have := (sext16 b).isLt
    rw [BitVec.toInt_eq_toNat_cond, BitVec.toInt_eq_toNat_cond] at hsign
    split at hsign <;> split at hsign <;> omega

/-- The decode port reports the instruction decoded, under SW_IMM_EXT (R96). -/
theorem decodePort_eq_ok {s : State} {a : Word} {d : Decoded} :
    decodePort s a = .ok d ↔ ∃ i c, decode s.fetch a = .ok i c ∧ i.decoded s.swImmExt = d := by
  unfold decodePort
  cases decode s.fetch a <;> simp [Read.result]

/-- The instruction data type of an operation with a short immediate (R84, R87). -/
def shortDecoded (ext : SwImmExt) (b : Byte) (dst : Operand) (size : Nat) : ArithOp → Decoded
  | .add => .add dst (.imm16 (ext.extend b)) size
  | .sub => .sub dst (.imm16 (ext.extend b)) size
  | .cmp => .cmp dst (.imm16 (ext.extend b)) size

theorem decoded_rmiInstr_short (ext : SwImmExt) (op : ArithOp) (rm : Operand) (b : Byte) :
    (op.rmiInstr rm (.short b)).decoded ext = shortDecoded ext b rm (3 + rm.dispBytes) op := by
  cases op <;> simp [ArithOp.rmiInstr, Instr.decoded, shortDecoded, RmiImm.operand, Instr.size, RmiImm.bytes] <;> omega

/-- `83 /sel ib` with a register destination: three bytes and the operation the selector chooses. -/
theorem decodePort_short_register {s : State} {a : Word} {r : BitVec 3} {b : Byte} (op : ArithOp)
    (h0 : s.fetch a.toNat = some 0x83#8) (h1 : s.fetch (a.toNat + 1) = some (addressingByte 0b11#2 op.selector r))
    (h2 : s.fetch (a.toNat + 2) = some b) :
    decodePort s a = .ok (shortDecoded s.swImmExt b (.reg (regName .word r)) 3 op) := by
  refine decodePort_eq_ok.2 ⟨op.rmiInstr (.reg (regName .word r)) (.short b), _, decode_eq_ok.2 ⟨?_, ?_, rfl⟩,
    decoded_rmiInstr_short _ op _ b⟩
  · simp [Operand.isRm, RmiImm.width]
  · have hlead : leadingByte 0b100000#6 true true = 0x83#8 := by decide
    simp [Operand.encodeRm, Operand.modCode, Operand.rmCode, Operand.dispEncode, RmiImm.encode, RmiImm.sBit, RmiImm.width,
      Width.bit, hlead, h0, h1, h2]

/-- An instruction with the leading byte 83 is an operation with a short immediate (R87). -/
theorem eq_rmiInstr_short {i : Instr} (h : i.family.lead = 0x83#8) :
    ∃ (op : ArithOp) (rm : Operand) (b : Byte), i = op.rmiInstr rm (.short b) := by
  have hf : i.family = .rmi true .word := by rw [← dispatch_lead_family, h]; decide
  cases i using Instr.byFamily with
  | rm | acc | br => simp at hf
  | regi => exact nomatch hf
  | rmi op rm imm =>
    cases imm with
    | short b => exact ⟨op, rm, b, rfl⟩
    | byte | word => simp [RmiImm.sBit, RmiImm.width] at hf

/-- The displacement bytes of an operand are as many as its size counts (R71). -/
theorem length_dispEncode (o : Operand) : o.dispEncode.length = o.dispBytes := by
  have := Laws.EncodedSize.length_encodeRm o 0#3
  rw [Operand.length_encodeRm] at this
  omega

/-- Settles O9: the register forms by `decodePort_short_register`; every other one by the shape of its instruction, whose last
byte is the immediate. -/
theorem shortImmediateUnderBothExtensions : Obligations.ShortImmediateUnderBothExtensions := by
  constructor
  · intro s a r b h0 h2
    exact ⟨s.swImmExt.extend b, isShortImmediate_extend s b, fun h1 => decodePort_short_register .add h0 h1 h2,
      fun h1 => decodePort_short_register .sub h0 h1 h2, fun h1 => decodePort_short_register .cmp h0 h1 h2⟩
  · intro s a d h0 h
    obtain ⟨i, c, hi, rfl⟩ := decodePort_eq_ok.1 h
    obtain ⟨-, hb, -⟩ := decode_eq_ok.1 hi
    have hlead : i.family.lead = 0x83#8 := by
      rw [encode_eq_lead_cons, holdsAt_cons, h0] at hb
      exact (Option.some.inj hb.1).symm
    obtain ⟨op, rm, b, rfl⟩ := eq_rmiInstr_short hlead
    rw [ArithOp.encode_rmiInstr, ← List.cons_append, holdsAt_append, holdsAt_cons] at hb
    obtain ⟨⟨-, hrm⟩, himm⟩ := hb
    rw [Operand.encodeRm, holdsAt_cons] at hrm
    refine ⟨_, b, rm, s.swImmExt.extend b, hrm.1, ?_, isShortImmediate_extend s b, ?_⟩
    · have hlast : a.toNat + (2 + rm.dispBytes) = a.toNat + (1 + rm.dispBytes + 1) := by omega
      simpa [RmiImm.encode, RmiImm.bytes, length_dispEncode, hlast] using himm
    · rw [regField_addressingByte, size_decoded, decoded_rmiInstr_short]
      cases op with
      | add => exact .inl ⟨rfl, by simp [shortDecoded, RmiImm.bytes]; omega⟩
      | sub => exact .inr (.inl ⟨rfl, by simp [shortDecoded, RmiImm.bytes]; omega⟩)
      | cmp => exact .inr (.inr ⟨rfl, by simp [shortDecoded, RmiImm.bytes]; omega⟩)

end Sys2Proof.Machine
end

section
/-! OBLIGATION. Words written out from the formats, and the table of the leading byte (30_encoding.md rules R72 to R91). -/

namespace Sys2Proof

/-- Settles O1: each word is decoded by evaluation. -/
theorem decodesWrittenWords : Obligations.DecodesWrittenWords := by
  unfold Obligations.DecodesWrittenWords; decide

/-- Settles O2: the 256 leading bytes, each by evaluation. -/
theorem dispatchIsTheLeadingByteTable : Obligations.DispatchIsTheLeadingByteTable := by
  unfold Obligations.DispatchIsTheLeadingByteTable; decide

end Sys2Proof
end

section
/-! OBLIGATION. The image, the reset and the boot (20_memory.md rules R50, R51; 70_reset_and_hazards.md rules R230 to R233). -/

namespace Sys2Proof.Machine

/-- A write of one byte leaves every other address. -/
theorem Memory.fetch_put_other {m : Memory} (h : m.wf = true) {a x : Nat} (hx : x ≠ a) (b : Byte) :
    (m.put a b).fetch x = m.fetch x := by
  rcases Nat.lt_or_ge a m.len with ha | ha
  · rw [Memory.fetch_put h ha, if_neg hx]
  · rw [Memory.put, if_neg (Nat.not_lt.2 ha)]

/-- Writes of consecutive bytes leave every address before them. -/
theorem Memory.fetch_putBytes_before {m : Memory} (h : m.wf = true) {a x : Nat} (hx : x < a) (bs : List Byte) :
    (m.putBytes a bs).fetch x = m.fetch x := by
  induction bs generalizing m a with
  | nil => rfl
  | cons b bs ih =>
    rw [Memory.putBytes, ih (Memory.put_wf h a b) (Nat.lt_succ_of_lt hx), Memory.fetch_put_other h (Nat.ne_of_lt hx)]

/-- Bytes written into the image stand there. -/
theorem Memory.holdsAt_putBytes {m : Memory} (h : m.wf = true) {a : Nat} {bs : List Byte} (hlen : a + bs.length ≤ m.len) :
    HoldsAt (m.putBytes a bs).fetch a bs := by
  induction bs generalizing m a with
  | nil => exact holdsAt_nil
  | cons b bs ih =>
    rw [List.length_cons] at hlen
    have hput := Memory.put_wf h a b
    refine holdsAt_cons.2 ⟨?_, ih hput (by rw [Memory.put_len]; omega)⟩
    rw [Memory.putBytes, Memory.fetch_putBytes_before hput (Nat.lt_succ_self a), Memory.fetch_put h (by omega), if_pos rfl]

theorem Memory.ofBytes_len {bs : List Byte} (h : bs.length ≤ Config.maxImageLen) : (Memory.ofBytes bs).len = bs.length := by
  simp [Memory.ofBytes, Memory.grow, Memory.empty, h]

/-- The image of a byte buffer answers its bytes, and none after them (R50, R51). -/
theorem Memory.fetch_ofBytes {bs : List Byte} (h : bs.length ≤ Config.maxImageLen) (a : Nat) :
    (Memory.ofBytes bs).fetch a = bs[a]? := by
  rcases Nat.lt_or_ge a bs.length with ha | ha
  · have hgrow : bs.length ≤ (Memory.empty.grow bs.length).len := by simp [Memory.grow, Memory.empty, h]
    have := Memory.holdsAt_putBytes (Memory.grow_wf Memory.empty_wf bs.length) (a := 0) (by rwa [Nat.zero_add]) a ha
    rwa [Nat.zero_add] at this
  · rw [List.getElem?_eq_none ha, Memory.fetch_eq_none, Memory.ofBytes_len h]
    exact ha

/-- A launch with a canonical image meets the invariant. -/
theorem launch_inv {m : Memory} (h : m.wf = true) (r : Regs) (z f : Bool) (e : SwImmExt) : (State.launch r z f m e).Inv where
  image_wf := h
  cursor_in_image := Nat.zero_le _
  count_bounded := Nat.zero_le _
  halted_past_end := nofun
  fault_is_last := fun _ h => nomatch h
  unsupported_is_last := fun _ h => nomatch h
  size_is_count := fun _ h => nomatch h

/-- Settles O22: the reset state is a launch with the empty image. -/
theorem invariantAtReset : Obligations.InvariantAtReset :=
  ⟨launch_inv Memory.empty_wf _ _ _ _, fun r z f _ e h => launch_inv h r z f e⟩

/-- Settles O10: the fields by evaluation; the empty image answers no byte. -/
theorem resetState : Obligations.ResetState :=
  ⟨rfl, rfl, rfl, rfl, rfl, rfl, rfl, fun a => Memory.fetch_eq_none.2 (Nat.zero_le a)⟩

/-- Settles O12: a boot is a launch with the image of the bytes, or a refusal. -/
theorem bootLoadsTheImage : Obligations.BootLoadsTheImage := by
  constructor
  · intro bytes ext h
    exact ⟨_, if_pos h, launch_inv (Memory.ofBytes_wf bytes) _ _ _ ext, Memory.ofBytes_len h, Memory.fetch_ofBytes h, rfl, rfl,
      rfl⟩
  · intro bytes ext h
    exact if_neg (Nat.not_le.2 h)

/-- Settles O11: the reset event launches with the image it finds, and a boot with the image of the bytes. -/
theorem resetKeepsImage : Obligations.ResetKeepsImage :=
  ⟨fun _ => ⟨rfl, fun _ => rfl, rfl⟩, fun bytes ext h =>
    ⟨{ State.reset with image := Memory.ofBytes bytes, swImmExt := ext }, Memory.fetch_ofBytes h, if_pos h⟩⟩

/-- No listed byte is the 0x00 of an unlisted address. -/
def NoZeros (cs : List Host.Cell) : Prop := ∀ c ∈ cs, c.2 ≠ 0#8

/-- The first cell of a rising list is the first address with a byte other than 0x00. -/
theorem cells_head_le {x y : Host.Cell} {xs ys : List Host.Cell} (hx : x.2 ≠ 0#8) (hy : cellsRise (y :: ys) = true)
    (h : ∀ a, cellAt a (x :: xs) = cellAt a (y :: ys)) : y.1 ≤ x.1 := by
  by_contra hlt
  obtain ⟨hhead, -⟩ := (cellsRise_cons y ys).1 hy
  have hzero : cellAt x.1 (y :: ys) = 0#8 :=
    cellAt_of_lt (List.forall_mem_cons.2 ⟨Nat.lt_of_not_le hlt, fun c hc => (Nat.lt_of_not_le hlt).trans (hhead c hc)⟩)
  rw [← h x.1] at hzero
  exact hx (by simpa [cellAt] using hzero)

/-- Rising cell lists with no 0x00 that hold the same bytes are equal. -/
theorem cells_eq {xs ys : List Host.Cell} (hxr : cellsRise xs = true) (hyr : cellsRise ys = true) (hxz : NoZeros xs)
    (hyz : NoZeros ys) (h : ∀ a, cellAt a xs = cellAt a ys) : xs = ys := by
  induction xs generalizing ys with
  | nil =>
    cases ys with
    | nil => rfl
    | cons y ys => exact absurd (by simpa [cellAt] using (h y.1).symm) (hyz y List.mem_cons_self)
  | cons x xs ih =>
    cases ys with
    | nil => exact absurd (by simpa [cellAt] using h x.1) (hxz x List.mem_cons_self)
    | cons y ys =>
      obtain ⟨hxh, hxt⟩ := (cellsRise_cons x xs).1 hxr
      obtain ⟨hyh, hyt⟩ := (cellsRise_cons y ys).1 hyr
      have haddr : x.1 = y.1 :=
        Nat.le_antisymm (cells_head_le (hyz y List.mem_cons_self) hxr fun a => (h a).symm)
          (cells_head_le (hxz x List.mem_cons_self) hyr h)
      have hbyte : x.2 = y.2 := by simpa [cellAt, haddr] using h x.1
      have htail : ∀ a, cellAt a xs = cellAt a ys := fun a => by
        by_cases ha : a = x.1
        · rw [ha, cellAt_of_lt hxh, haddr, cellAt_of_lt hyh]
        · simpa [cellAt, Ne.symm ha, haddr ▸ Ne.symm ha] using h a
      obtain ⟨hxz0, hxz'⟩ := List.forall_mem_cons.1 hxz
      obtain ⟨hyz0, hyz'⟩ := List.forall_mem_cons.1 hyz
      rw [ih hxt hyt hxz' hyz' htail, Prod.ext haddr hbyte]

/-- An image answers none from its length on and nowhere before, so the fetches determine the length. -/
theorem Memory.len_le_of_fetch {m n : Memory} (h : ∀ a, m.fetch a = n.fetch a) : m.len ≤ n.len :=
  Memory.fetch_eq_none.1 ((h n.len).trans (Memory.fetch_eq_none.2 (Nat.le_refl _)))

/-- In a canonical image nothing is listed at or beyond L, so a cell list is determined by the fetches. -/
theorem Memory.cellAt_eq_getD {m : Memory} (h : m.wf = true) (a : Nat) : cellAt a m.cells = (m.fetch a).getD 0#8 := by
  obtain ⟨-, -, hc⟩ := (Memory.wf_iff m).1 h
  rcases Nat.lt_or_ge a m.len with ha | ha
  · simp [Memory.fetch, ha]
  · rw [Memory.fetch_eq_none.2 ha]
    exact cellAt_of_not_mem fun c hcm => Nat.ne_of_lt ((hc c hcm).1.trans_le ha)

/-- Settles O13: the lengths by the first address without a byte, the cells by `cells_eq`. -/
theorem canonicalImagesAreDetermined : Obligations.CanonicalImagesAreDetermined := by
  intro m n hm hn h
  obtain ⟨-, hmr, hmz⟩ := (Memory.wf_iff m).1 hm
  obtain ⟨-, hnr, hnz⟩ := (Memory.wf_iff n).1 hn
  have hlen : m.len = n.len :=
    Nat.le_antisymm (Memory.len_le_of_fetch h) (Memory.len_le_of_fetch fun a => (h a).symm)
  have hcells : m.cells = n.cells :=
    cells_eq hmr hnr (fun c hc => (hmz c hc).2) (fun c hc => (hnz c hc).2) fun a => by
      rw [Memory.cellAt_eq_getD hm, Memory.cellAt_eq_getD hn, h]
  cases m; cases n; cases hlen; cases hcells; rfl

end Sys2Proof.Machine
end

section
/-! OBLIGATION. The register file, the ALU and the effective address (10_state.md rules R21 to R27; 40_cycle.md rules R126,
R127). -/

namespace Sys2Proof.Machine

theorem toNat_zext16 (b : Byte) : (zext16 b).toNat = b.toNat := by
  simpa [zext16] using Nat.mod_eq_of_lt (b.isLt.trans (by decide : 2 ^ 8 < 65536))

theorem getLsbD_cat (hi lo : Byte) (i : Nat) :
    (cat hi lo).getLsbD i = if i < 8 then lo.getLsbD i else hi.getLsbD (i - 8) := BitVec.getLsbD_append

theorem getLsbD_lowByte (v : Word) (i : Nat) : (lowByte v).getLsbD i = (decide (i < 8) && v.getLsbD i) := by
  rw [lowByte, BitVec.getLsbD_extractLsb, Nat.zero_add]

theorem getLsbD_highByte (v : Word) (i : Nat) : (highByte v).getLsbD i = (decide (i < 8) && v.getLsbD (8 + i)) := by
  rw [highByte, BitVec.getLsbD_extractLsb]

/-- A write of the low half in bit arithmetic (R24). -/
theorem Part.write_low (old v : Word) : Part.low.write old v = old &&& 0xFF00#16 ||| v &&& 0x00FF#16 := by
  apply BitVec.eq_of_getLsbD_eq
  intro i hi
  simp only [Part.write, getLsbD_cat, getLsbD_lowByte, getLsbD_highByte, BitVec.getLsbD_or, BitVec.getLsbD_and]
  interval_cases i <;> simp

/-- A write of the high half in bit arithmetic (R24). -/
theorem Part.write_high (old v : Word) : Part.high.write old v = (v &&& 0x00FF#16) <<< 8 ||| old &&& 0x00FF#16 := by
  apply BitVec.eq_of_getLsbD_eq
  intro i hi
  simp only [Part.write, getLsbD_cat, getLsbD_lowByte, BitVec.getLsbD_or, BitVec.getLsbD_and, BitVec.getLsbD_shiftLeft]
  interval_cases i <;> simp

/-- A write changes the part of the slot that the name covers, and no other field (R24). -/
theorem State.writeReg_eq (s : State) {n : RegName} {t : Slot} {p : Part} (ht : slotOf n = t) (hp : partOf n = p) (v : Word) :
    s.writeReg n v = { s with regs := s.regs.set t (p.write (s.regs.get t) v) } := by
  rw [← ht, ← hp]; rfl

/-- A read takes the part of the slot that the name covers (R23). -/
theorem State.readReg_eq (s : State) {n : RegName} {t : Slot} {p : Part} (ht : slotOf n = t) (hp : partOf n = p) :
    s.readReg n = p.read (s.regs.get t) := by
  rw [← ht, ← hp]; rfl

/-- A low byte, a high byte and a word name of one slot. -/
def NamesOf (q : RegName × RegName × RegName × Slot) : Prop :=
  (slotOf q.1 = q.2.2.2 ∧ partOf q.1 = .low) ∧ (slotOf q.2.1 = q.2.2.2 ∧ partOf q.2.1 = .high) ∧
    slotOf q.2.2.1 = q.2.2.2 ∧ partOf q.2.2.1 = .full

/-- The names of the four slots that have byte names (R21). -/
theorem namesOf_byteSlots :
    ∀ q ∈ [(RegName.al, RegName.ah, RegName.ax, Slot.ax), (.cl, .ch, .cx, .cx), (.dl, .dh, .dx, .dx), (.bl, .bh, .bx, .bx)],
      NamesOf q := by
  unfold NamesOf; decide

/-- The names of the four slots that have none (R21). -/
theorem wordOf_wordSlots :
    ∀ q ∈ [(RegName.sp, Slot.sp), (.bp, .bp), (.si, .si), (.di, .di)], slotOf q.1 = q.2 ∧ partOf q.1 = .full := by decide

/-- Settles O26: each name writes its part of its slot. -/
theorem registerWriteKeepsTheOtherHalf : Obligations.RegisterWriteKeepsTheOtherHalf := by
  constructor
  · intro q hq s v
    obtain ⟨⟨hl, hlp⟩, ⟨hh, hhp⟩, hf, hfp⟩ := namesOf_byteSlots q hq
    refine ⟨?_, ?_, s.writeReg_eq hf hfp v⟩
    · rw [s.writeReg_eq hl hlp, Part.write_low]
    · rw [s.writeReg_eq hh hhp, Part.write_high]
  · intro q hq s v
    obtain ⟨ht, hp⟩ := wordOf_wordSlots q hq
    exact s.writeReg_eq ht hp v

/-- Settles O27: each name reads its part of its slot. -/
theorem registerReadTakesItsBits : Obligations.RegisterReadTakesItsBits := by
  constructor
  · intro q hq s
    obtain ⟨⟨hl, hlp⟩, ⟨hh, hhp⟩, hf, hfp⟩ := namesOf_byteSlots q hq
    refine ⟨?_, ?_, s.readReg_eq hf hfp⟩
    · rw [s.readReg_eq hl hlp, Part.read, toNat_zext16, toNat_lowByte]
    · rw [s.readReg_eq hh hhp, Part.read, toNat_zext16, toNat_highByte]
  · intro q hq s
    obtain ⟨ht, hp⟩ := wordOf_wordSlots q hq
    exact s.readReg_eq ht hp

/-- The number of bits of a part. -/
def Part.bits : Part → Nat
  | .full => 16
  | .low | .high => 8

/-- A name covers as many bits as its width has (R21, R25). -/
theorem bits_partOf (n : RegName) : (partOf n).bits = n.width.bits := by cases n <;> rfl

/-- The part that was written reads as the value modulo its size. -/
theorem Part.toNat_read_write (p : Part) (old v : Word) : (p.read (p.write old v)).toNat = v.toNat % 2 ^ p.bits := by
  cases p with
  | full => exact (Nat.mod_eq_of_lt v.isLt).symm
  | low => rw [Part.write, Part.read, lowByte_cat, toNat_zext16, toNat_lowByte]; rfl
  | high => rw [Part.write, Part.read, highByte_cat, toNat_zext16, toNat_lowByte]; rfl

/-- Parts of a slot that share a bit. -/
def Part.overlaps (p q : Part) : Bool := decide (p = q) || decide (p = .full) || decide (q = .full)

/-- A part that shares no bit with the written one reads as before: the two halves of a slot. -/
theorem Part.read_write_other {p q : Part} (h : p.overlaps q = false) (old v : Word) :
    q.read (p.write old v) = q.read old := by
  cases p <;> cases q <;> simp [Part.overlaps] at h
  · rw [Part.write, Part.read, highByte_cat]; rfl
  · rw [Part.write, Part.read, lowByte_cat]; rfl

/-- A name that shares no bit with the written one reads as before. -/
theorem State.readReg_writeReg_of_not_overlaps (s : State) {n m : RegName} (h : overlaps n m = false) (v : Word) :
    (s.writeReg n v).readReg m = s.readReg m := by
  by_cases hslot : slotOf n = slotOf m
  · have hpart : (partOf n).overlaps (partOf m) = false := by simpa [overlaps, hslot, Part.overlaps] using h
    rw [s.writeReg_eq hslot rfl, State.readReg, Regs.get_set_same, Part.read_write_other hpart]; rfl
  · exact s.readReg_writeReg_other (Ne.symm hslot) v

/-- The written name reads as the value modulo its width. -/
theorem State.toNat_readReg_writeReg (s : State) (n : RegName) (v : Word) :
    ((s.writeReg n v).readReg n).toNat = v.toNat % 2 ^ n.width.bits := by
  rw [State.readReg, State.writeReg_regs, Regs.get_set_same, Part.toNat_read_write, bits_partOf]

/-- Settles O28: the written name by `toNat_readReg_writeReg`, the others by their slot or their half of it. -/
theorem registerReadAfterWrite : Obligations.RegisterReadAfterWrite :=
  fun s n _ v => ⟨s.toNat_readReg_writeReg n v, fun h => s.readReg_writeReg_of_not_overlaps h v⟩

/-- Settles O29: each word name reads its slot. -/
theorem registersInDumpOrder : Obligations.RegistersInDumpOrder := fun _ => rfl

/-- Settles O30: the ALU's two operations as arithmetic on numbers. -/
theorem aluIsModularArithmetic : Obligations.AluIsModularArithmetic :=
  fun w a b => ⟨toNat_aluAdd w a b, toNat_aluSub w a b⟩

/-- The value of a signed displacement modulo 2^16 (R127). -/
theorem toNat_dispValue_d8 (k : Int) : ((dispValue (.d8 k)).toNat : Int) = k % 65536 := by
  rw [dispValue, BitVec.toNat_ofInt]; omega

section
variable (s : State) (b c : RegName) (disp : Disp)

theorem effectiveAddress_two : effectiveAddress s [b, c] disp = s.readReg b + s.readReg c + dispValue disp := by
  simp [effectiveAddress]

theorem effectiveAddress_one : effectiveAddress s [b] disp = s.readReg b + dispValue disp := by
  simp [effectiveAddress]

theorem effectiveAddress_nil : effectiveAddress s [] disp = dispValue disp := by
  simp [effectiveAddress]

end

/-- Settles O33: the sum of words for each number of bases, as a number modulo 2^16. -/
theorem effectiveAddressIsTheSum : Obligations.EffectiveAddressIsTheSum := by
  intro s b c k v
  have hk := toNat_dispValue_d8 k
  simp only [effectiveAddress_two, effectiveAddress_one, effectiveAddress_nil]
  refine ⟨by simp [hk], by simp [hk], ?_, ?_, ?_, ?_, ?_⟩ <;> simp [dispValue]

end Sys2Proof.Machine
end

section
/-! SUPPORT. What the execution of an instruction does, said once: a two-operand instruction is an operation on a destination and
a source, and every other instruction is a branch (40_cycle.md rules R123 to R131). -/

namespace Sys2Proof.Machine

/-- What a two-operand instruction does: an operation at a width, its destination and its source. -/
structure Operation where
  op : RmOp
  width : Width
  dst : Operand
  src : Operand

/-- The state an operation leaves, from the values of the destination and the source (41_move.md R140; 42_arith.md R151 to R159). -/
def Operation.effect (o : Operation) (s : State) (a b : Word) : State :=
  match o.op with
  | .mov => s.writeOperand o.dst b
  | .arith .add => (s.writeOperand o.dst (aluAdd o.width a b)).setFlags o.width (aluAdd o.width a b)
  | .arith .sub => (s.writeOperand o.dst (aluSub o.width a b)).setFlags o.width (aluSub o.width a b)
  | .arith .cmp => s.setFlags o.width (aluSub o.width a b)

/-- The operation of an instruction under SW_IMM_EXT; a branch has none. -/
def operationOf (e : SwImmExt) : Instr → Option Operation
  | .movRm d rm reg => some ⟨.mov, reg.width, d.dst rm reg, d.src rm reg⟩
  | .addRm d rm reg => some ⟨.arith .add, reg.width, d.dst rm reg, d.src rm reg⟩
  | .subRm d rm reg => some ⟨.arith .sub, reg.width, d.dst rm reg, d.src rm reg⟩
  | .cmpRm d rm reg => some ⟨.arith .cmp, reg.width, d.dst rm reg, d.src rm reg⟩
  | .movRegi reg imm => some ⟨.mov, reg.width, .reg reg, imm.operand⟩
  | .addAcc imm => some ⟨.arith .add, imm.width, accumulator imm.width, imm.operand⟩
  | .subAcc imm => some ⟨.arith .sub, imm.width, accumulator imm.width, imm.operand⟩
  | .cmpAcc imm => some ⟨.arith .cmp, imm.width, accumulator imm.width, imm.operand⟩
  | .addRmi rm imm => some ⟨.arith .add, imm.width, rm, imm.operand e⟩
  | .subRmi rm imm => some ⟨.arith .sub, imm.width, rm, imm.operand e⟩
  | .cmpRmi rm imm => some ⟨.arith .cmp, imm.width, rm, imm.operand e⟩
  | .jo _ | .jno _ | .jb _ | .jnb _ | .je _ | .jne _ | .jbe _ | .ja _ | .js _ | .jns _ | .jp _ | .jnp _ | .jl _ | .jnl _
  | .jle _ | .jg _ | .loopnz _ | .loopz _ | .loop _ | .jcxz _ => none

/-- The execution of an instruction with an operation is the operation's effect on its operands. -/
theorem exec_operation {i : Instr} {s : State} {o : Operation} (h : operationOf s.swImmExt i = some o) :
    exec i s = onOperands i o.dst o.src s (o.effect s) := by
  cases i <;> cases h <;> rfl

/-- An instruction without an operation is a branch. -/
theorem eq_branch_of_operation {e : SwImmExt} {i : Instr} (h : operationOf e i = none) :
    ∃ (k : BranchKind) (disp : Int), i = k.instr disp := by
  cases i using Instr.byFamily with
  | rm op => rcases op with _ | _ | _ | _ <;> exact nomatch h
  | acc op | rmi op => cases op <;> exact nomatch h
  | regi => exact nomatch h
  | br k disp => exact ⟨k, disp, rfl⟩

/-- A branch kind but JNE is beyond the execution boundary (43_branch.md R172). -/
theorem exec_branch {k : BranchKind} (h : k ≠ .jne) (disp : Int) (s : State) :
    exec (k.instr disp) s = unexecutedBranch (k.instr disp) s := by
  cases k with
  | jne => exact absurd rfl h
  | jo | jno | jb | jnb | je | jbe | ja | js | jns | jp | jnp | jl | jnl | jle | jg | loopnz | loopz | loop | jcxz => rfl

/-- The instruction pointer after JNE: the one found where ZF is set, the target where it is clear (R178). -/
def jneTarget (s : State) (disp : Int) : Word := if s.zf then s.ip else s.branchTarget disp

/-- JNE writes the instruction pointer. -/
theorem exec_jne (disp : Int) (s : State) :
    exec (.jne disp) s = ifWellFormed (.jne disp) (.next (s.setIp (jneTarget s disp))) := by
  show ifWellFormed _ _ = _
  unfold jneTarget
  split <;> rfl

/-- What an instruction that completes can do: an operation's effect on two values, or JNE's write of the instruction pointer. -/
theorem exec_next_cases {i : Instr} {s t : State} (h : exec i s = .next t) :
    i.wellFormed = true ∧
      ((∃ o a b, operationOf s.swImmExt i = some o ∧ s.val o.dst = some a ∧ s.val o.src = some b ∧ t = o.effect s a b) ∨
        ∃ disp, i = .jne disp ∧ t = s.setIp (jneTarget s disp)) := by
  cases ho : operationOf s.swImmExt i with
  | some o =>
    rw [exec_operation ho] at h
    obtain ⟨hw, a, b, ha, hb, rfl⟩ := onOperands_next.1 h
    exact ⟨hw, .inl ⟨o, a, b, rfl, ha, hb, rfl⟩⟩
  | none =>
    obtain ⟨k, disp, rfl⟩ := eq_branch_of_operation ho
    by_cases hk : k = .jne
    · subst hk
      obtain ⟨hw, ht⟩ := ifWellFormed_next.1 ((exec_jne disp s).symm.trans h)
      exact ⟨hw, .inr ⟨disp, rfl, (Host.Outcome.next.inj ht).symm⟩⟩
    · rw [exec_branch hk] at h
      exact absurd h unexecutedBranch_next

/-- An instruction whose operands have values completes with the effect on them. -/
theorem exec_of_values {i : Instr} {s : State} {o : Operation} {a b : Word} (hw : i.wellFormed = true)
    (ho : operationOf s.swImmExt i = some o) (ha : s.val o.dst = some a) (hb : s.val o.src = some b) :
    exec i s = .next (o.effect s a b) := by
  rw [exec_operation ho]
  exact onOperands_next.2 ⟨hw, a, b, ha, hb, rfl⟩

/-- An effect changes the register file and the flags alone. -/
theorem Operation.effect_eq (o : Operation) (s : State) (a b : Word) :
    o.effect s a b = { s with regs := (o.effect s a b).regs, zf := (o.effect s a b).zf, sf := (o.effect s a b).sf } := by
  rcases o with ⟨_ | _ | _ | _, w, dst, src⟩ <;> cases dst <;> rfl

/-- What completes changes the register file, the flags and the instruction pointer alone. -/
theorem exec_next_eq {i : Instr} {s t : State} (h : exec i s = .next t) :
    t = { s with regs := t.regs, zf := t.zf, sf := t.sf, ip := t.ip } := by
  obtain ⟨-, ⟨o, a, b, -, -, -, rfl⟩ | ⟨disp, -, rfl⟩⟩ := exec_next_cases h
  · rw [o.effect_eq]
  · rfl

/-- An operand has a value exactly where it is no memory operand (R123, R124). -/
theorem isSome_val (s : State) (op : Operand) : (s.val op).isSome = !isMemory op := by cases op <;> rfl

/-- An instruction with an operation is executed exactly where neither operand is a memory operand (R124). -/
theorem isExecuted_operation {e : SwImmExt} {i : Instr} {o : Operation} (h : operationOf e i = some o) :
    isExecuted i = (!isMemory o.dst && !isMemory o.src) := by
  cases i <;> cases h
  case movRm d _ _ | addRm d _ _ | subRm d _ _ | cmpRm d _ _ => cases d <;> simp [isExecuted, Dir.dst, Dir.src, isMemory]
  case movRegi imm | addAcc imm | subAcc imm | cmpAcc imm => cases imm <;> rfl
  case addRmi imm | subRmi imm | cmpRmi imm => cases imm <;> simp [isExecuted, RmiImm.operand, isMemory]

/-- A branch is executed exactly where it is JNE (R172). -/
theorem isExecuted_branch (k : BranchKind) (disp : Int) : isExecuted (k.instr disp) = decide (k = .jne) := by
  cases k <;> rfl

end Sys2Proof.Machine
end

section
/-! OBLIGATION. The outcome and the frame of every instruction (40_cycle.md rules R124, R129 to R131; 43_branch.md rule R172). -/

namespace Sys2Proof.Machine

/-- An ill-formed term is refused (R130). -/
theorem exec_illFormed {i : Instr} (h : i.wellFormed = false) (s : State) : exec i s = .refused (.illFormed i) := by
  cases ho : operationOf s.swImmExt i with
  | some o => rw [exec_operation ho]; exact onOperands_refused.2 ⟨h, rfl⟩
  | none =>
    obtain ⟨k, disp, rfl⟩ := eq_branch_of_operation ho
    by_cases hk : k = .jne
    · subst hk
      exact (exec_jne disp s).trans (if_neg (Bool.eq_false_iff.1 h))
    · rw [exec_branch hk]
      exact if_neg (Bool.eq_false_iff.1 h)

/-- An executed instruction completes (R131). -/
theorem exec_executed {i : Instr} (hw : i.wellFormed = true) (hx : isExecuted i = true) (s : State) :
    ∃ t, exec i s = .next t := by
  cases ho : operationOf s.swImmExt i with
  | some o =>
    rw [isExecuted_operation ho, ← isSome_val s, ← isSome_val s, Bool.and_eq_true] at hx
    obtain ⟨a, ha⟩ := Option.isSome_iff_exists.1 hx.1
    obtain ⟨b, hb⟩ := Option.isSome_iff_exists.1 hx.2
    exact ⟨_, exec_of_values hw ho ha hb⟩
  | none =>
    obtain ⟨k, disp, rfl⟩ := eq_branch_of_operation ho
    rw [isExecuted_branch, decide_eq_true_eq] at hx
    subst hx
    exact ⟨_, (exec_jne disp s).trans (ifWellFormed_of hw _)⟩

/-- Every other instruction that the decoder can return raises Unsupported (R124, R172). -/
theorem exec_unsupported {i : Instr} (hw : i.wellFormed = true) (hx : isExecuted i = false) (s : State) :
    exec i s = raiseUnsupported i s := by
  cases ho : operationOf s.swImmExt i with
  | some o =>
    rw [isExecuted_operation ho, ← isSome_val s, ← isSome_val s, Bool.and_eq_false_iff, Option.isSome_eq_false_iff,
      Option.isSome_eq_false_iff, Option.isNone_iff_eq_none, Option.isNone_iff_eq_none] at hx
    rw [exec_operation ho]
    exact onOperands_fault.2 ⟨hw, hx, rfl⟩
  | none =>
    obtain ⟨k, disp, rfl⟩ := eq_branch_of_operation ho
    rw [isExecuted_branch, decide_eq_false_iff_not] at hx
    rw [exec_branch hx]
    exact ifWellFormed_of hw _

/-- Settles O41: one lemma for each outcome. -/
theorem executionOutcomeOfEveryInstruction : Obligations.ExecutionOutcomeOfEveryInstruction :=
  fun _ s => ⟨fun h => exec_illFormed h s, fun hw hx => exec_executed hw hx s, fun hw hx => exec_unsupported hw hx s⟩

/-- Settles O39: the 19 kinds are well formed for a signed 8-bit displacement and not executed. -/
theorem otherBranchesAreUnsupported : Obligations.OtherBranchesAreUnsupported := by
  intro k disp s hk hlo hhi
  have hw : (k.instr disp).wellFormed = true := by simp [isSigned8, hlo, hhi]
  rw [exec_unsupported hw (by simp [isExecuted_branch, hk]), raiseUnsupported, BranchKind.decoded_instr]

/-- Settles O40: an instruction with a well-formed memory operand is well formed and not executed. -/
theorem memoryOperandsAreUnsupported : Obligations.MemoryOperandsAreUnsupported := by
  intro s bases disp hmem
  constructor
  · intro d reg i hi
    have hrm : (Operand.mem bases disp).isRm reg.width = true := hmem
    simp only [List.mem_cons, List.not_mem_nil, or_false] at hi
    rcases hi with rfl | rfl | rfl | rfl <;> exact exec_unsupported (by exact hrm) rfl s
  · intro imm i hi
    have hrm : (Operand.mem bases disp).isRm imm.width = true := hmem
    simp only [List.mem_cons, List.not_mem_nil, or_false] at hi
    rcases hi with rfl | rfl | rfl <;> exact exec_unsupported (by exact hrm) rfl s

/-- The register an operation writes: none for CMP. -/
def Operation.written (o : Operation) : Option RegName :=
  match o.op with
  | .arith .cmp => none
  | .mov | .arith .add | .arith .sub => registerOf o.dst

/-- The register an instruction writes is its operation's. -/
theorem writtenRegister_operation {e : SwImmExt} {i : Instr} {o : Operation} (h : operationOf e i = some o) :
    writtenRegister i = o.written := by
  cases i <;> cases h <;> rfl

/-- A write to an operand is a write to the register it is, or nothing. -/
theorem writeOperand_regs_of_none (s : State) {op : Operand} (h : registerOf op = none) (v : Word) :
    (s.writeOperand op v).regs = s.regs := by
  cases op with
  | reg n => exact nomatch h
  | mem | imm8 | imm16 => rfl

theorem readReg_writeOperand (s : State) {op : Operand} {m : RegName}
    (h : ∀ n, registerOf op = some n → overlaps n m = false) (v : Word) : (s.writeOperand op v).readReg m = s.readReg m := by
  cases op with
  | reg n => exact s.readReg_writeReg_of_not_overlaps (h n rfl) v
  | mem | imm8 | imm16 => rfl

/-- An operation that writes no register leaves the register file. -/
theorem Operation.effect_regs (o : Operation) (s : State) (a b : Word) (h : o.written = none) :
    (o.effect s a b).regs = s.regs := by
  rcases o with ⟨_ | _ | _ | _, w, dst, src⟩
  · exact writeOperand_regs_of_none s h b
  · exact writeOperand_regs_of_none s h (aluAdd w a b)
  · exact writeOperand_regs_of_none s h (aluSub w a b)
  · rfl

/-- A name that shares no bit with the register an operation writes reads as before. -/
theorem Operation.readReg_effect (o : Operation) (s : State) (a b : Word) {m : RegName}
    (h : ∀ n, o.written = some n → overlaps n m = false) :
    (o.effect s a b).readReg m = s.readReg m := by
  rcases o with ⟨_ | _ | _ | _, w, dst, src⟩
  · exact readReg_writeOperand s h b
  · exact readReg_writeOperand s h (aluAdd w a b)
  · exact readReg_writeOperand s h (aluSub w a b)
  · rfl

/-- Settles O42: the registers by the operation, the instruction pointer by JNE, all else by `exec_next_eq`. -/
theorem executionFrame : Obligations.ExecutionFrame := by
  intro i s t h
  have hrest := exec_next_eq h
  refine ⟨?_, ?_, ?_, by rw [hrest], by rw [hrest], by rw [hrest], by rw [hrest], fun a => by rw [hrest]; rfl⟩ <;>
    obtain ⟨-, ⟨o, a, b, ho, -, -, rfl⟩ | ⟨disp, rfl, rfl⟩⟩ := exec_next_cases h
  · intro m hm
    rw [writtenRegister_operation ho] at hm
    exact o.readReg_effect s a b hm
  · exact fun _ _ => rfl
  · intro hn
    rw [writtenRegister_operation ho] at hn
    exact o.effect_regs s a b hn
  · exact fun _ => rfl
  · exact fun _ => by rw [o.effect_eq]
  · exact fun hne => absurd rfl (hne disp)

end Sys2Proof.Machine
end

section
/-! OBLIGATION. What MOV, ADD, SUB, CMP and JNE do where they complete (41_move.md; 42_arith.md; 43_branch.md rules R170, R178). -/

namespace Sys2Proof.Machine

theorem zext16_eq_ofNat (b : Byte) : zext16 b = BitVec.ofNat 16 b.toNat := by
  apply BitVec.eq_of_toNat_eq
  rw [toNat_zext16, BitVec.toNat_ofNat, Nat.mod_eq_of_lt (b.isLt.trans (by decide : 2 ^ 8 < 2 ^ 16))]

/-- The flags of an n-bit result, read as a number. -/
theorem setFlags_eq_flagsFrom (s : State) {w : Width} {r : Word} (h : r.toNat < 2 ^ w.bits) :
    s.setFlags w r = flagsFrom s w r := flagsFromTheResult s w r h

section
variable {i : Instr} {s : State} {n : RegName} {w : Width} {src : Operand} {b : Word}

/-- MOV into a register (R140, R141). -/
theorem exec_mov (hw : i.wellFormed = true) (ho : operationOf s.swImmExt i = some ⟨.mov, w, .reg n, src⟩)
    (hb : s.val src = some b) : exec i s = .next (s.writeReg n b) :=
  exec_of_values hw ho rfl hb

/-- ADD into a register (R151 to R153). -/
theorem exec_add (hw : i.wellFormed = true) (ho : operationOf s.swImmExt i = some ⟨.arith .add, w, .reg n, src⟩)
    (hb : s.val src = some b) :
    exec i s = .next (flagsFrom (s.writeReg n (sumOf w (s.readReg n) b)) w (sumOf w (s.readReg n) b)) := by
  rw [exec_of_values hw ho rfl hb, ← aluAdd_eq_sumOf, ← setFlags_eq_flagsFrom _ (aluAdd_lt w _ b)]
  rfl

/-- SUB into a register, of a value of its width (R154 to R156). -/
theorem exec_sub (hw : i.wellFormed = true) (ho : operationOf s.swImmExt i = some ⟨.arith .sub, w, .reg n, src⟩)
    (hb : s.val src = some b) (hlt : b.toNat < 2 ^ w.bits) :
    exec i s = .next (flagsFrom (s.writeReg n (differenceOf w (s.readReg n) b)) w (differenceOf w (s.readReg n) b)) := by
  rw [exec_of_values hw ho rfl hb, ← aluSub_eq_differenceOf _ hlt, ← setFlags_eq_flagsFrom _ (aluSub_lt w _ b)]
  rfl

/-- CMP of a register with a value of its width (R157 to R159). -/
theorem exec_cmp (hw : i.wellFormed = true) (ho : operationOf s.swImmExt i = some ⟨.arith .cmp, w, .reg n, src⟩)
    (hb : s.val src = some b) (hlt : b.toNat < 2 ^ w.bits) :
    exec i s = .next (flagsFrom s w (differenceOf w (s.readReg n) b)) := by
  rw [exec_of_values hw ho rfl hb, ← aluSub_eq_differenceOf _ hlt, ← setFlags_eq_flagsFrom _ (aluSub_lt w _ b)]
  rfl

end

/-- A family-RM term on two registers of one width is well formed. -/
theorem isRm_reg {n : RegName} {w : Width} (h : n.width = w) : (Operand.reg n).isRm w = true := decide_eq_true h

/-- The value of a byte immediate (30_encoding.md R83). -/
theorem val_imm8 (s : State) (v : Byte) : s.val (.imm8 v) = some (BitVec.ofNat 16 v.toNat) :=
  congrArg some (zext16_eq_ofNat v)

theorem toNat_byte_lt (v : Byte) : (BitVec.ofNat 16 v.toNat).toNat < 2 ^ Width.byte.bits := by
  rw [← zext16_eq_ofNat]; exact zext16_lt v

/-- Settles O34: each form is well formed and moves into a register a source that has a value. -/
theorem movCompletes : Obligations.MovCompletes := by
  refine ⟨fun s n reg h => ⟨?_, ?_⟩, fun s reg v h => ?_, fun s reg v h => ?_⟩
  · exact exec_mov (isRm_reg h) rfl rfl
  · exact exec_mov (isRm_reg h) rfl rfl
  · exact exec_mov (decide_eq_true h.symm) rfl (val_imm8 s v)
  · exact exec_mov (decide_eq_true h.symm) rfl rfl

/-- Settles O35: each form adds to a register a source that has a value. -/
theorem addCompletes : Obligations.AddCompletes := by
  refine ⟨fun s n reg h => ⟨?_, ?_⟩, fun s v => ?_, fun s v => ?_, fun s n t v h => ?_, fun s n v h => ?_, fun s n v h => ?_⟩
  · exact exec_add (isRm_reg h) rfl rfl
  · exact exec_add (isRm_reg h) rfl rfl
  · exact exec_add rfl rfl (val_imm8 s v)
  · exact exec_add rfl rfl rfl
  · exact exec_add (isRm_reg h) rfl (val_imm8 s v)
  · exact exec_add (isRm_reg h) rfl rfl
  · exact exec_add (isRm_reg h) rfl rfl

/-- Settles O36: each form takes from a register a source with a value of its width. -/
theorem subCompletes : Obligations.SubCompletes := by
  refine ⟨fun s n reg h => ⟨?_, ?_⟩, fun s v => ?_, fun s v => ?_, fun s n t v h => ?_, fun s n v h => ?_, fun s n v h => ?_⟩
  · exact exec_sub (isRm_reg h) rfl rfl (s.readReg_lt reg)
  · exact exec_sub (isRm_reg h) rfl rfl (h ▸ s.readReg_lt n)
  · exact exec_sub rfl rfl (val_imm8 s v) (toNat_byte_lt v)
  · exact exec_sub rfl rfl rfl v.isLt
  · exact exec_sub (isRm_reg h) rfl (val_imm8 s v) (toNat_byte_lt v)
  · exact exec_sub (isRm_reg h) rfl rfl v.isLt
  · exact exec_sub (isRm_reg h) rfl rfl (s.swImmExt.extend v).isLt

/-- Settles O37: each form compares a register with a source with a value of its width. -/
theorem cmpCompletes : Obligations.CmpCompletes := by
  refine ⟨fun s n reg h => ⟨?_, ?_⟩, fun s v => ?_, fun s v => ?_, fun s n t v h => ?_, fun s n v h => ?_, fun s n v h => ?_⟩
  · exact exec_cmp (isRm_reg h) rfl rfl (s.readReg_lt reg)
  · exact exec_cmp (isRm_reg h) rfl rfl (h ▸ s.readReg_lt n)
  · exact exec_cmp rfl rfl (val_imm8 s v) (toNat_byte_lt v)
  · exact exec_cmp rfl rfl rfl v.isLt
  · exact exec_cmp (isRm_reg h) rfl (val_imm8 s v) (toNat_byte_lt v)
  · exact exec_cmp (isRm_reg h) rfl rfl v.isLt
  · exact exec_cmp (isRm_reg h) rfl rfl (s.swImmExt.extend v).isLt

/-- The branch target as a number (R170). -/
theorem toNat_branchTarget (s : State) (disp : Int) :
    ((s.branchTarget disp).toNat : Int) = ((s.ip.toNat : Int) + disp) % 65536 := by
  rw [State.branchTarget, BitVec.toNat_add, BitVec.toNat_ofInt]; omega

theorem jneTarget_of_set {s : State} (h : s.zf = true) (disp : Int) : jneTarget s disp = s.ip := if_pos h

theorem jneTarget_of_clear {s : State} (h : s.zf = false) (disp : Int) : jneTarget s disp = s.branchTarget disp :=
  if_neg (Bool.eq_false_iff.1 h)

/-- Settles O38: the target for each value of ZF. -/
theorem jneCompletes : Obligations.JneCompletes := by
  intro s k hlo hhi
  have hw : (Instr.jne k).wellFormed = true := by simp [Instr.wellFormed, isSigned8, hlo, hhi]
  refine ⟨jneTarget s k, (exec_jne k s).trans (ifWellFormed_of hw _), fun hz => jneTarget_of_set hz k, fun hz => ?_⟩
  rw [jneTarget_of_clear hz]
  exact toNat_branchTarget s k

/-- CMP and SUB of the same operands: the same flags, from the same difference. -/
theorem compare_subtract {i j : Instr} {s t u : State} {w : Width} {dst src : Operand}
    (ht : compareOperands i w dst src s = .next t) (hu : subOperands j w dst src s = .next u) :
    t.zf = u.zf ∧ t.sf = u.sf ∧ t = { s with zf := t.zf, sf := t.sf } ∧
      u = { s with regs := u.regs, zf := u.zf, sf := u.sf } := by
  obtain ⟨-, a, b, ha, hb, rfl⟩ := onOperands_next.1 ht
  obtain ⟨-, a', b', ha', hb', rfl⟩ := onOperands_next.1 hu
  obtain rfl : a = a' := Option.some.inj (ha.symm.trans ha')
  obtain rfl : b = b' := Option.some.inj (hb.symm.trans hb')
  refine ⟨rfl, rfl, rfl, ?_⟩
  rw [State.writeOperand_eq]
  rfl

/-- Settles O32: the two instructions have the same operands in each family. -/
theorem cmpFlagsAreSubFlags : Obligations.CmpFlagsAreSubFlags := by
  rintro s t u (⟨d, rm, reg, ht, hu⟩ | ⟨imm, ht, hu⟩ | ⟨rm, imm, ht, hu⟩)
  · exact compare_subtract ht hu
  · exact compare_subtract (i := .cmpAcc imm) (j := .subAcc imm) ht hu
  · exact compare_subtract ht hu

/-- A value of a width taken from itself is 0 (42_arith.md R161). -/
theorem differenceOf_self {w : Width} {a : Word} (h : a.toNat < 2 ^ w.bits) : differenceOf w a a = 0x0000#16 := by
  rw [differenceOf, Nat.add_sub_cancel' (Nat.le_of_lt h), Nat.mod_self]

/-- The flags of the result 0. -/
theorem flagsFrom_zero (s : State) (w : Width) : flagsFrom s w 0x0000#16 = { s with zf := true, sf := false } := by
  cases w <;> rfl

/-- An instruction of family RM on one register twice has it as destination and source, whatever the direction. -/
theorem sameOperands (d : Dir) (n : RegName) : d.dst (.reg n) n = .reg n ∧ d.src (.reg n) n = .reg n := by
  cases d <;> exact ⟨rfl, rfl⟩

/-- Settles O45: the difference is 0, and the sum is read back from the register. -/
theorem sameRegisterTwice : Obligations.SameRegisterTwice := by
  intro s n d
  have hw : (Operand.reg n).isRm n.width = true := isRm_reg rfl
  have hlt := s.readReg_lt n
  have hdiff := differenceOf_self hlt
  obtain ⟨hdst, hsrc⟩ := sameOperands d n
  refine ⟨?_, ?_, _, exec_add hw (by rw [operationOf, hdst, hsrc]) rfl, ?_⟩
  · rw [exec_sub (i := .subRm d (.reg n) n) hw (by rw [operationOf, hdst, hsrc]) rfl hlt, hdiff, flagsFrom_zero]
  · rw [exec_cmp (i := .cmpRm d (.reg n) n) hw (by rw [operationOf, hdst, hsrc]) rfl hlt, hdiff, flagsFrom_zero]
  · refine (s.toNat_readReg_writeReg n _).trans ?_
    rw [← aluAdd_eq_sumOf, toNat_aluAdd, Nat.mod_mod, Nat.two_mul]

/-- The values of operands do not depend on SW_IMM_EXT or the instruction pointer, nor do effects but for carrying them along. -/
theorem val_congr {s t : State} (h : t.regs = s.regs) (op : Operand) : t.val op = s.val op := by
  cases op with
  | reg n => exact congrArg (fun r => some ((partOf n).read (Regs.get r (slotOf n)))) h
  | mem | imm8 | imm16 => rfl

theorem effect_setExt (o : Operation) (s : State) (a b : Word) (e : SwImmExt) :
    o.effect { s with swImmExt := e } a b = { o.effect s a b with swImmExt := e } := by
  rcases o with ⟨_ | _ | _ | _, w, dst, src⟩ <;> cases dst <;> rfl

theorem effect_setIp (o : Operation) (s : State) (a b x : Word) :
    o.effect { s with ip := x } a b = { o.effect s a b with ip := x } := by
  rcases o with ⟨_ | _ | _ | _, w, dst, src⟩ <;> cases dst <;> rfl

/-- Below 0x80 a byte is extended alike under both values (R87). -/
theorem extend_eq {v : Byte} (h : v.toNat < 0x80) (e f : SwImmExt) : e.extend v = f.extend v := by
  have hsign : sext16 v = zext16 v := by
    revert h; revert v; decide
  cases e <;> cases f <;> simp [SwImmExt.extend, hsign]

/-- The operation of an instruction without a short immediate of 0x80 or more is the same under both values. -/
theorem operationOf_ext {i : Instr} (h : dependsOnExtension i = false) (e f : SwImmExt) : operationOf e i = operationOf f i := by
  have himm (imm : RmiImm) (himm : ∀ v, imm = .short v → v.toNat < 0x80) : imm.operand e = imm.operand f := by
    cases imm with
    | byte | word => rfl
    | short v => rw [RmiImm.operand, RmiImm.operand, extend_eq (himm v rfl) e f]
  have hshort (v : Byte) (hv : decide (0x80 ≤ v.toNat) = false) : v.toNat < 0x80 := by simpa using hv
  cases i with
  | addRmi rm imm | subRmi rm imm | cmpRmi rm imm =>
    rw [operationOf, operationOf, himm imm fun v hv => hshort v (by subst hv; exact h)]
  | _ => rfl

/-- Settles O46: the operation is the same, and its effect carries SW_IMM_EXT along. -/
theorem extensionBearsOnShortImmediatesOnly : Obligations.ExtensionBearsOnShortImmediatesOnly := by
  intro i s t e hi h
  obtain ⟨hw, ⟨o, a, b, ho, ha, hb, rfl⟩ | ⟨disp, rfl, rfl⟩⟩ := exec_next_cases h
  · rw [← effect_setExt]
    exact exec_of_values hw ((operationOf_ext hi _ _).trans ho) ((val_congr rfl _).trans ha) ((val_congr rfl _).trans hb)
  · exact (exec_jne disp _).trans (ifWellFormed_of hw _)

/-- Settles O47: an operation's effect carries the instruction pointer along. -/
theorem onlyBranchesReadIp : Obligations.OnlyBranchesReadIp := by
  intro i s t x hi h
  obtain ⟨hw, ⟨o, a, b, ho, ha, hb, rfl⟩ | ⟨disp, rfl, -⟩⟩ := exec_next_cases h
  · rw [← effect_setIp]
    exact exec_of_values hw ho ((val_congr rfl _).trans ha) ((val_congr rfl _).trans hb)
  · exact absurd rfl (hi disp)

end Sys2Proof.Machine
end

section
/-! OBLIGATION. One step: what it runs, the outcomes it can have, and what every step keeps (40_cycle.md rules R120, R121;
60_exceptions.md rules R200 to R205, R220). -/

namespace Sys2Proof.Machine

/-- Settles O15: the halting step, from the laws of the step. -/
theorem stepAtEndHalts : Obligations.StepAtEndHalts := fun _ hr he => step_at_end hr he

/-- Settles O16: the record and the advance, field by field. -/
theorem stepRunsDecodedInstruction : Obligations.StepRunsDecodedInstruction := by
  intro s i c hr he hd
  have hdec : s.decodeAtIp = .ok i c := hd
  rw [step_inside hr he, decodeAndExecute, hdec]
  rfl

/-- Settles O18: the record and the status, field by field. -/
theorem stepOnDecodeError : Obligations.StepOnDecodeError := by
  intro s e c hr he hd
  have hdec : s.decodeAtIp = .err e c := hd
  rw [step_inside hr he, decodeAndExecute, hdec]
  rfl

/-- A byte is answered inside the image alone (20_memory.md R51). -/
theorem lt_len_of_isSome {s : State} {a : Nat} (h : (s.fetch a).isSome = true) : a < s.image.len := by
  by_contra hlt
  rw [State.fetch, Memory.fetch_eq_none.2 (Nat.not_lt.1 hlt)] at h
  exact nomatch h

/-- A reading that starts inside the image stops inside it. -/
theorem within_pos_le {α : Type} {s : State} {c : Cursor} {n : Nat} {r : Read α} (h : Within s.fetch c n r)
    (hc : c.pos ≤ s.image.len) : r.cursor.pos ≤ s.image.len := by
  obtain ⟨⟨k, -, hcur, hsome⟩, -⟩ := h
  rw [hcur, Cursor.skip_pos]
  cases k with
  | zero => exact hc
  | succ k => exact lt_len_of_isSome (hsome k (Nat.lt_succ_self k))

/-- A decode reads at most six bytes. -/
theorem within_count_le {α : Type} {fetch : Nat → Option Byte} {a : Word} {n : Nat} {r : Read α}
    (h : Within fetch (Cursor.start a) n r) : r.cursor.count ≤ n := by
  obtain ⟨⟨k, hk, hcur, -⟩, -⟩ := h
  rwa [hcur, Cursor.skip_count, Cursor.start_count, Nat.zero_add]

/-- An instruction is decoded from bytes inside the image: it begins before L and its bytes end at L at the latest (R52). -/
theorem decode_inside {s : State} {a : Word} {i : Instr} {c : Cursor} (h : decode s.fetch a = .ok i c) :
    a.toNat < s.image.len ∧ a.toNat + c.count ≤ s.image.len := by
  obtain ⟨hw, hb, rfl⟩ := decode_eq_ok.1 h
  obtain ⟨hlen, htwo, -⟩ := encodedSize i hw
  have hlast := lt_len_of_isSome (hb.isSome (k := i.size - 1) (by omega))
  show _ ∧ a.toNat + i.size ≤ _
  omega

/-- Settles O21: the counted bytes end at L at the latest, and L is at most 65535. -/
theorem advanceNeverWraps : Obligations.AdvanceNeverWraps := by
  intro s i c hwf hd
  obtain ⟨-, hle⟩ := decode_inside hd
  obtain ⟨hmax, -, -⟩ := (Memory.wf_iff s.image).1 hwf
  rw [Config.maxImageLen] at hmax
  refine ⟨hle, ?_⟩
  rw [BitVec.toNat_add, BitVec.toNat_ofNat]
  omega

/-- Settles O17: the bytes decode to the instruction, inside the image. -/
theorem stepRunsEncodedInstruction : Obligations.StepRunsEncodedInstruction := by
  intro s i hr hw hb
  have hd : decode s.fetch s.ip = .ok i ⟨s.ip.toNat + i.size, i.size⟩ := decode_eq_ok.2 ⟨hw, hb, rfl⟩
  rw [stepRunsDecodedInstruction s i _ hr (decode_inside hd).1 hd, afterDecode]

/-- The state in which a decoded instruction is executed (R120). -/
def decodedState (s : State) (i : Instr) (c : Cursor) : State := (s.recordDecode (.ok i c)).advance c.count

/-- The state a decode error leaves (60_exceptions.md R203). -/
def decodeErrorState (s : State) (e : DecodeError) (c : Cursor) : State :=
  { s with status := .decodeFault e, last := some (.err e), cursor := c }

/-- The state Unsupported leaves (R205). -/
def unsupportedState (s : State) (i : Instr) (c : Cursor) : State :=
  { decodedState s i c with status := .unsupported (i.decoded s.swImmExt) }

/-- What a step can answer, with the state it leaves. -/
inductive StepOutcome (s : State) : Result → Prop
  | stopped (hr : s.status ≠ .running) : StepOutcome s (.next s)
  | halts (hr : s.status = .running) (he : s.image.len ≤ s.ip.toNat) : StepOutcome s (.next s.halt)
  | decodeError (hr : s.status = .running) (e : DecodeError) (c : Cursor) (he : s.ip.toNat < s.image.len)
      (hd : s.decodeAtIp = .err e c) : StepOutcome s (.fault (.decodeFault e (decodeErrorState s e c)))
  | completes (hr : s.status = .running) (i : Instr) (c : Cursor) (t : State) (hd : s.decodeAtIp = .ok i c)
      (ht : exec i (decodedState s i c) = .next t) : StepOutcome s (.next t)
  | unsupported (hr : s.status = .running) (i : Instr) (c : Cursor) (hd : s.decodeAtIp = .ok i c) :
      StepOutcome s (.fault (.unsupported (i.decoded s.swImmExt) (unsupportedState s i c)))

/-- Every step has one of these outcomes: what decodes is well formed, so it completes or raises Unsupported. -/
theorem step_outcome (s : State) : StepOutcome s (step s) := by
  rcases step_cases s with ⟨hr, hs⟩ | ⟨hr, he, hs⟩ | ⟨hr, he, e, c, hd, hs⟩ | ⟨hr, he, i, c, hd, hs⟩ <;> rw [hs]
  · exact .stopped hr
  · exact .halts hr he
  · exact .decodeError hr e c he hd
  · obtain ⟨hw, -, -⟩ := decode_eq_ok.1 hd
    cases hx : isExecuted i with
    | true =>
      obtain ⟨t, ht⟩ := exec_executed hw hx (decodedState s i c)
      exact ht ▸ .completes hr i c t hd ht
    | false =>
      rw [exec_unsupported hw hx]
      exact .unsupported hr i c hd

/-- What completes keeps the status, the record of the decode, the image and SW_IMM_EXT. -/
theorem exec_next_keeps {i : Instr} {s t : State} (h : exec i s = .next t) :
    t.status = s.status ∧ t.last = s.last ∧ t.cursor = s.cursor ∧ t.image = s.image ∧ t.swImmExt = s.swImmExt := by
  rw [exec_next_eq h]
  exact ⟨rfl, rfl, rfl, rfl, rfl⟩

/-- Settles O14: no outcome changes the image or SW_IMM_EXT, so no fetch. -/
theorem noStepWritesTheImage : Obligations.NoStepWritesTheImage := by
  intro s t h
  have hkeeps : t.image = s.image ∧ t.swImmExt = s.swImmExt := by
    have hout := step_outcome s
    generalize step s = r at h hout
    cases hout <;> obtain rfl := Option.some.inj h
    case stopped | halts | decodeError | unsupported => exact ⟨rfl, rfl⟩
    case completes ht =>
      obtain ⟨-, -, -, himage, hext⟩ := exec_next_keeps ht
      exact ⟨himage, hext⟩
  exact ⟨hkeeps.1, hkeeps.2, fun a => by rw [State.fetch, State.fetch, hkeeps.1]⟩

/-- Settles O20: the outcomes of a running core, with the status of each. -/
theorem stepHasOneOfFourOutcomes : Obligations.StepHasOneOfFourOutcomes := by
  intro s hr
  have hout := step_outcome s
  generalize step s = r at hout
  cases hout with
  | stopped hstop => exact absurd hr hstop
  | halts => exact .inr (.inl ⟨_, rfl, rfl⟩)
  | decodeError => exact .inr (.inr (.inl ⟨_, _, rfl, rfl⟩))
  | completes _ i c t _ ht => exact .inl ⟨t, rfl, (exec_next_keeps ht).1.trans hr⟩
  | unsupported => exact .inr (.inr (.inr ⟨_, _, rfl, rfl⟩))

/-- Settles O19: the status that each outcome leaves. -/
theorem statusTransitions : Obligations.StatusTransitions := by
  refine ⟨fun _ => rfl, fun s hr => step_stopped hr, fun s t hr h => ?_, fun s e t h => ?_, fun s d t h => ?_⟩ <;>
    have hout := step_outcome s <;> rw [h] at hout
  · cases hout with
    | stopped hstop => exact absurd hr hstop
    | halts => exact .inr rfl
    | completes _ _ _ _ _ ht => exact .inl ((exec_next_keeps ht).1.trans hr)
  · cases hout with
    | decodeError hr => exact ⟨hr, rfl⟩
  · cases hout with
    | unsupported hr => exact ⟨hr, rfl⟩

/-- Settles O24: a decode error keeps all of it, Unsupported all but `ip`. -/
theorem faultsLeaveRegistersAndFlags : Obligations.FaultsLeaveRegistersAndFlags := by
  rintro s t (⟨e, h⟩ | ⟨d, h⟩) <;> have hout := step_outcome s <;> rw [h] at hout
  · cases hout with
    | decodeError => exact ⟨rfl, rfl, rfl, rfl, fun _ => rfl⟩
  · cases hout with
    | unsupported => exact ⟨rfl, rfl, rfl, rfl, fun ⟨_, he⟩ => nomatch he⟩

/-- The invariant holds of a state that records a decoded instruction and runs or has stopped with Unsupported on it. -/
theorem inv_of_decoded {s t : State} {i : Instr} {c : Cursor} (hwf : s.image.wf = true) (hd : s.decodeAtIp = .ok i c)
    (himage : t.image = s.image) (hcursor : t.cursor = c) (hlast : t.last = some (.ok (i.decoded s.swImmExt)))
    (hstatus : t.status = .running ∨ t.status = .unsupported (i.decoded s.swImmExt)) : t.Inv := by
  obtain ⟨hw, -, rfl⟩ := decode_eq_ok.1 hd
  have hle := (decode_inside hd).2
  constructor
  · rwa [himage]
  · rw [himage, hcursor]; exact hle
  · rw [hcursor]; exact (encodedSize i hw).2.2
  · intro h; rw [h] at hstatus; exact hstatus.elim nofun nofun
  · intro e h; rw [h] at hstatus; exact hstatus.elim nofun nofun
  · intro d h
    rw [h] at hstatus
    rw [hlast, Status.unsupported.inj (hstatus.resolve_left nofun)]
  · intro d h
    rw [hlast] at h
    obtain rfl := DecodeResult.ok.inj (Option.some.inj h)
    rw [size_decoded, hcursor]

/-- Settles O23: every outcome keeps the invariant. -/
theorem everyStepKeepsTheInvariant : Obligations.EveryStepKeepsTheInvariant := by
  intro s t hinv h
  have hout := step_outcome s
  generalize step s = r at h hout
  cases hout with
  | stopped =>
    obtain rfl := Option.some.inj h
    exact hinv
  | halts hr he =>
    obtain rfl := Option.some.inj h
    exact { hinv with
      halted_past_end := fun _ => he
      fault_is_last := fun _ h => nomatch h
      unsupported_is_last := fun _ h => nomatch h }
  | decodeError hr e c he hd =>
    obtain rfl := Option.some.inj h
    have hwithin := within_decode s.fetch s.ip
    have hpos := within_pos_le hwithin (Nat.le_of_lt he)
    have hcount := within_count_le hwithin
    rw [← State.decodeAtIp, hd] at hpos hcount
    exact {
      image_wf := hinv.image_wf
      cursor_in_image := hpos
      count_bounded := hcount
      halted_past_end := fun h => nomatch h
      fault_is_last := fun e' h => congrArg (fun x => some (DecodeResult.err x)) (Status.decodeFault.inj h)
      unsupported_is_last := fun _ h => nomatch h
      size_is_count := fun _ h => nomatch h }
  | completes hr i c u hd hu =>
    obtain rfl := Option.some.inj h
    obtain ⟨hstatus, hlast, hcursor, himage, -⟩ := exec_next_keeps hu
    exact inv_of_decoded hinv.image_wf hd himage hcursor hlast (.inl (hstatus.trans hr))
  | unsupported hr i c hd =>
    obtain rfl := Option.some.inj h
    exact inv_of_decoded hinv.image_wf hd rfl rfl rfl (.inr rfl)

end Sys2Proof.Machine
end

section
/-! OBLIGATION. From the bits of the image to the effect (30_encoding.md rules R74 to R89; 40_cycle.md rule R129;
70_reset_and_hazards.md rule R239). -/

namespace Sys2Proof.Machine

/-- A family-RM instruction between two registers, named by the bits of its two bytes (30_encoding.md R74, R76). -/
def registerForm (op : RmOp) (d w : Bool) (reg rm : BitVec 3) : Instr :=
  op.instr (Dir.ofBit d) (.reg (regName (Width.ofBit w) rm)) (regName (Width.ofBit w) reg)

/-- The register that d selects as the destination (R82). -/
def formDst (d w : Bool) (reg rm : BitVec 3) : RegName := if d then regName (Width.ofBit w) reg else regName (Width.ofBit w) rm

/-- The register that d selects as the source (R82). -/
def formSrc (d w : Bool) (reg rm : BitVec 3) : RegName := if d then regName (Width.ofBit w) rm else regName (Width.ofBit w) reg

section
variable (op : RmOp) (d w : Bool) (reg rm : BitVec 3)

theorem registerForm_wellFormed : (registerForm op d w reg rm).wellFormed = true := by
  simp [registerForm, Operand.isRm]

theorem encode_registerForm :
    encode (registerForm op d w reg rm) = [leadingByte op.opcode d w, addressingByte 0b11#2 reg rm] := by
  have hd : (Dir.ofBit d).bit = d := by cases d <;> rfl
  have hw : (Width.ofBit w).bit = w := by cases w <;> rfl
  simp [registerForm, Operand.encodeRm, Operand.modCode, Operand.rmCode, Operand.dispEncode, hd, hw]

theorem operationOf_registerForm (e : SwImmExt) :
    operationOf e (registerForm op d w reg rm) =
      some ⟨op, Width.ofBit w, .reg (formDst d w reg rm), .reg (formSrc d w reg rm)⟩ := by
  rcases op with _ | _ | _ | _ <;> cases d <;>
    simp [registerForm, RmOp.instr, operationOf, formDst, formSrc, Dir.ofBit, Dir.dst, Dir.src]

theorem width_formSrc : (formSrc d w reg rm).width = Width.ofBit w := by
  cases d <;> simp [formSrc]

end

/-- A step at the bytes of a register form runs it. -/
theorem step_registerForm {s : State} {d w : Bool} {reg rm : BitVec 3} (op : RmOp) (hr : s.status = .running)
    (hb : bytesAtIp s [leadingByte op.opcode d w, addressingByte 0b11#2 reg rm]) :
    step s = exec (registerForm op d w reg rm) (afterDecode s (registerForm op d w reg rm) 2) := by
  rw [← encode_registerForm] at hb
  have hw := registerForm_wellFormed op d w reg rm
  have hsize : (registerForm op d w reg rm).size = 2 := by simp [registerForm, Operand.dispBytes]
  rw [stepRunsEncodedInstruction s _ hr hw hb, hsize]

/-- Settles O48: the step runs the register form, whose operation is on the two registers. -/
theorem registerFormsFromTheirBits : Obligations.RegisterFormsFromTheirBits := by
  intro s d w reg rm hr
  have hsrc : (s.readReg (formSrc d w reg rm)).toNat < 2 ^ (Width.ofBit w).bits := by
    rw [← width_formSrc d w reg rm]; exact s.readReg_lt _
  have hw (op : RmOp) := registerForm_wellFormed op d w reg rm
  have ho (op : RmOp) (e : SwImmExt) := operationOf_registerForm op d w reg rm e
  refine ⟨fun hb => ?_, fun hb => ?_, fun hb => ?_, fun hb => ?_⟩
  · rw [step_registerForm .mov hr hb]
    exact exec_mov (hw .mov) (ho .mov _) rfl
  · rw [step_registerForm (.arith .add) hr hb]
    exact exec_add (hw (.arith .add)) (ho (.arith .add) _) rfl
  · rw [step_registerForm (.arith .sub) hr hb]
    exact exec_sub (hw (.arith .sub)) (ho (.arith .sub) _) rfl hsrc
  · rw [step_registerForm (.arith .cmp) hr hb]
    exact exec_cmp (hw (.arith .cmp)) (ho (.arith .cmp) _) rfl hsrc

/-- Settles O49: the two bytes are the encoding of JNE, whose target is taken from the advanced instruction pointer. -/
theorem jneFromItsBits : Obligations.JneFromItsBits := by
  intro s b hr hb
  have hw : (Instr.jne b.toInt).wellFormed = true := isSigned8_signed8 b
  have henc : encode (.jne b.toInt) = [0x75#8, b] := by rw [encode, ← signed8, ofSigned8_signed8]
  rw [← henc] at hb
  have hip : ((s.ip + BitVec.ofNat 16 2).toNat : Int) = ((s.ip.toNat : Int) + 2) % 65536 := by
    rw [BitVec.toNat_add, BitVec.toNat_ofNat]; omega
  refine ⟨jneTarget (afterDecode s (.jne b.toInt) 2) b.toInt, ?_, fun hz => ?_, fun hz => ?_⟩
  · rw [stepRunsEncodedInstruction s _ hr hw hb, exec_jne, ifWellFormed_of hw]
    rfl
  · rw [jneTarget_of_set (s := afterDecode s (.jne b.toInt) 2) hz]
    exact hip
  · rw [jneTarget_of_clear (s := afterDecode s (.jne b.toInt) 2) hz, toNat_branchTarget]
    show (((s.ip + BitVec.ofNat 16 2).toNat : Int) + b.toInt) % 65536 = _
    rw [hip]; omega

/-- A run of one more step goes on from the next state. -/
theorem run_succ_of_next {M : Host.Core} {s t : M.State} (h : M.step s = .next t) (k : Nat) : M.run (k + 1) s = M.run k t := by
  simp only [Host.Core.run, h]

/-- Settles O25: the step comes back to its own address with the registers, ZF and the image as they were. -/
theorem jneToItselfHangs : Obligations.JneToItselfHangs := by
  intro k
  induction k with
  | zero => exact fun s hr hz _ => ⟨s, rfl, hr, rfl, rfl, hz⟩
  | succ k ih =>
    intro s hr hz hb
    obtain ⟨t, hstep, -, ht⟩ := jneFromItsBits s 0xFE#8 hr hb
    obtain rfl : t = s.ip := by
      have hdisp : (0xFE#8 : Byte).toInt = -2 := by decide
      have := ht hz
      have := s.ip.isLt
      rw [hdisp] at ht
      apply BitVec.eq_of_toNat_eq
      omega
    obtain ⟨u, hu, hrest⟩ := ih { afterDecode s (.jne (0xFE#8 : Byte).toInt) 2 with ip := s.ip } hr hz hb
    exact ⟨u, (run_succ_of_next (M := Sys2Proof.core) hstep k).trans hu, hrest⟩

end Sys2Proof.Machine
end

section
/-! OBLIGATION. The listing of the examples (30_encoding.md rules R102 to R107; 95_test_vectors.md Part 4). -/

namespace Sys2Proof.Machine

/-- Settles O50: both listings by evaluation. -/
theorem listingOfTheExamples : Obligations.ListingOfTheExamples := by
  unfold Obligations.ListingOfTheExamples; decide

end Sys2Proof.Machine
end
